-- ==== Sys2Proof/Word.lean ====
section
/-! DEFINITION. The machine's one data width and the two-valued addressing mode. -/

namespace Sys2Proof

/-- A memory cell, an instruction byte, an ALU operand: always 8 bits (R5, R71). -/
abbrev Byte := BitVec 8

/-- The addressing mode of one operand slot: bit value 0 is relative to the entry address, bit value 1 is
absolute from the start of the buffer (R38). -/
inductive AddrMode where
  | relative
  | absolute
  deriving DecidableEq, Repr

end Sys2Proof
end

