-- ==== Sys2Proof/Machine/Flags.lean ====
section
/-! DEFINITION. Flags: the machine has none (R14, R74). What stands here is the one condition the ALU computes, the
borrow, a wire consumed inside the ALU and stored nowhere (R17, R72). -/

namespace Sys2Proof.Machine

/-- The 9-bit difference `v1 - v2` of R72's hardware rendering. -/
def diff9 (a b : Byte) : BitVec 9 := a.setWidth 9 - b.setWidth 9

/-- The borrow of the 9-bit subtraction: its top bit (R72). -/
def borrow (a b : Byte) : Bool := (diff9 a b).getLsbD 8

/-- The multiplexer of R72's hardware rendering: the low 8 bits of the difference where there is no borrow, the
constant 0 where there is. The machine uses `ssub8`. -/
def borrowMux (a b : Byte) : Byte := if borrow a b then 0 else (diff9 a b).setWidth 8

end Sys2Proof.Machine
end

