-- ==== Sys2Proof/Machine/Alu.lean ====
section
/-! DEFINITION. Sub-block 4, the fixed-width ALU: saturating subtraction (43_alu.md). -/

namespace Sys2Proof.Machine

/-- `ssub8(a, b) = (a > b) ? a - b : 0`, comparison and subtraction on unsigned bytes (R72, R73; log entry 6). -/
def ssub8 (a b : Byte) : Byte := if b < a then a - b else 0

/-- `alu(fn, v1, v2) = ssub8(v1, v2)` for every `fn`: the dispatch hook has one active operation (R8, R76; log
entry 9). -/
def alu (_fn : BitVec 5) (v1 v2 : Byte) : Byte := ssub8 v1 v2

end Sys2Proof.Machine
end

