-- ==== Sys2Proof/Machine/Resolver.lean ====
section
/-! DEFINITION. Sub-block 1, the modular address resolver (40_address_resolver.md). -/

namespace Sys2Proof.Machine

/-- `resolve(L, A) = A mod L`, floored: the one index `i` with `0 <= i < L` and `i ≡ A (mod L)` (R46, R48).
`Int.emod` by a positive length is the floored modulo (R47). -/
def resolve (L : Nat) (A : Int) : Nat := (A % (L : Int)).toNat

/-- `IW = ceil(log2 L)`, the number of bits an index needs; derived, not architectural (R5). -/
def indexWidth (L : Nat) : Nat := Nat.clog 2 L

/-- The first loop of the reference algorithm, `while A < 0: A <- A + L`, with at most `n` turns (R47). -/
def raiseLoop : Nat → Nat → Int → Option Int
  | 0, _, A => if A < 0 then none else some A
  | n + 1, L, A => if A < 0 then raiseLoop n L (A + L) else some A

/-- The second loop of the reference algorithm, `while A >= L: A <- A - L`, with at most `n` turns (R47). -/
def lowerLoop : Nat → Nat → Int → Option Int
  | 0, L, A => if (L : Int) ≤ A then none else some A
  | n + 1, L, A => if (L : Int) ≤ A then lowerLoop n L (A - L) else some A

/-- The reference algorithm with at most `up` additions and then at most `down` subtractions; `none` where more
turns are needed (R47). The machine uses `resolve`. -/
def resolveLoop (up down L : Nat) (A : Int) : Option Int :=
  (raiseLoop up L A).bind (lowerLoop down L)

end Sys2Proof.Machine
end

