-- ==== Sys2Proof/Config.lean ====
section
/-! DEFINITION. What is fixed for the life of one machine (the buffer length) and what the spec leaves free (the
entry addresses the host draws, the bytes memory is seeded with). -/

namespace Sys2Proof

/-- The configuration of one machine: its buffer length `L`, any number from 1 up (R4, R50). It is kept as the
highest index `L - 1`, so that a machine with `L = 0` cannot be written down. -/
structure Config where
  lastIndex : Nat
  deriving DecidableEq, Repr

/-- The buffer length `L` (R4). -/
def Config.L (c : Config) : Nat := c.lastIndex + 1

/-- Configuring a machine with a buffer of `n` cells: refused for `n = 0`, where no machine exists (R50, D14). -/
def Config.ofLength? : Nat → Option Config
  | 0 => none
  | n + 1 => some ⟨n⟩

/-- The canonical length, 1024 cells (R4). -/
def Config.canonical : Config := ⟨1023⟩

/-- FREE VALUE. The host's `n`-th free choice of an entry address: "an arbitrary integer per step under no law"
(R103, U7). No body, so nothing is known of it: neither its sign, its size nor any fairness (log entry 2; safe). -/
opaque Config.hostEntry : Nat → Int

/-- FREE VALUE. The byte that cell `i` is seeded with before the first step: "unspecified, any value in every cell"
(R20, U6). No body, so neither zero nor any other pattern can be assumed, and every cell still holds a definite byte
(log entry 3; safe). -/
opaque Config.seedByte : Nat → Byte

end Sys2Proof
end

