-- ==== Sys2Proof/Syntax.lean ====
section
/-! DEFINITION. The instruction set: one instruction, one constructor (R41, R45, opcode table row SSUB). -/

namespace Sys2Proof

/-- `SSUB`, saturating subtract, memory to memory (R79). Fields as R45 lists them: the modes of source-1, source-2
and destination, the reserved field `fn` (kept, and ignored by every meaning: R60), and the three displacement
bytes as they stand in the instruction. -/
inductive Instr where
  | ssub (m1 m2 md : AddrMode) (fn : BitVec 5) (i1 i2 i3 : Byte)
  deriving DecidableEq, Repr

/-- The spec's pseudo-instruction `nop`: `ssub .+0, .+0, .+0`, bytes `00 00 00 00` (R44). -/
def Instr.nop : Instr := .ssub .relative .relative .relative 0 0 0 0

/-- The spec's pseudo-instruction `clr D`: `ssub .+0, .+0, D` (R44). -/
def Instr.clr (md : AddrMode) (i3 : Byte) : Instr := .ssub .relative .relative md 0 0 0 i3

end Sys2Proof
end

