-- ==== Sys2Proof/WellFormed.lean ====
section
/-! DEFINITION. Which terms of Instr are instructions: all of them. -/

namespace Sys2Proof

/-- Every term is well formed: the fields have exactly the widths of the encoding, and "every one of the 2^32
four-byte patterns is a valid instruction" (R41); no mode, `fn` value or displacement is reserved. The checks that
can refuse a term stand where a term can be wrong: `Config.ofLength?` (a buffer of no cells), `Asm.Stmt.wellFormed`
(a written displacement or `fn` outside its field), `Memory.wf` and `State.Inv` (a memory out of form). -/
def Instr.wellFormed : Instr → Bool
  | .ssub _ _ _ _ _ _ _ => true

end Sys2Proof
end

