-- ==== Sys2Proof/Decode.lean ====
section
/-! DEFINITION. The instruction decoder (41_fetch_decode.md), the encoder, and the opcode table's word view. -/

namespace Sys2Proof

/-- `sext_8`: the signed, two's complement value of a displacement byte, `-128 .. 127` (R9, R39, R61).
PRESUMED (log entry 4; unsafe): the spec marks the two's complement reading as general knowledge. -/
def sext8 (b : Byte) : Int := b.toInt

/-- A mode bit: 0 relative, 1 absolute (R38). -/
def AddrMode.ofBit : Bool → AddrMode
  | false => .relative
  | true => .absolute

/-- The mode bit of a mode, the inverse of `AddrMode.ofBit` (R38). -/
def AddrMode.toBit : AddrMode → Bool
  | .relative => false
  | .absolute => true

/-- Decoding the four fetched bytes: `m1 = I0[7]`, `m2 = I0[6]`, `md = I0[5]`, `fn = I0[4:0]`, and the displacement
bytes as they stand (R36, R59, R60). Total: every byte pattern decodes (R41, R62). -/
def decode (i0 i1 i2 i3 : Byte) : Instr :=
  .ssub (.ofBit (i0.getLsbD 7)) (.ofBit (i0.getLsbD 6)) (.ofBit (i0.getLsbD 5)) (i0.setWidth 5) i1 i2 i3

/-- Why a list of bytes is not an instruction. -/
inductive DecodeError where
  /-- Fewer than the four bytes of the one format are there (R35). The machine never meets it: its fetch reads four
  bytes always (R58). Safe (log entry 11). -/
  | truncated
  deriving DecidableEq, Repr

/-- The instruction at the head of a byte list, with the rest of the list; four bytes always (R35). -/
def decodeBytes : List Byte → Except DecodeError (Instr × List Byte)
  | i0 :: i1 :: i2 :: i3 :: rest => .ok (decode i0 i1 i2 i3, rest)
  | _ => .error .truncated

/-- The opcode byte `m1 m2 md fn[4:0]`, bit 7 first (R36). -/
def encodeOpcode (m1 m2 md : AddrMode) (fn : BitVec 5) : Byte :=
  BitVec.ofBool m1.toBit ++ BitVec.ofBool m2.toBit ++ BitVec.ofBool md.toBit ++ fn

/-- The four bytes of an instruction, in fetch order (R35, R36, R37). -/
def encode : Instr → List Byte
  | .ssub m1 m2 md fn i1 i2 i3 => [encodeOpcode m1 m2 md fn, i1, i2, i3]

/-- The word view `W` of the opcode table as bytes in fetch order: `I0` is bits 31:24 and `I3` bits 7:0 (R40); bits
from `nbits` up are 0. DEDUCED (log entry 7; safe): a notation, no memory access of the hardware. -/
def tableWordBytes (nbits w : Nat) : List Byte :=
  let v := w % 2 ^ nbits
  [BitVec.ofNat 8 (v / 2 ^ 24), BitVec.ofNat 8 (v / 2 ^ 16), BitVec.ofNat 8 (v / 2 ^ 8), BitVec.ofNat 8 v]

/-- The instruction the decoder reads from a word of the opcode table (R40). -/
def decodeTableWord (nbits w : Nat) : Option Instr :=
  match decodeBytes (tableWordBytes nbits w) with
  | .ok (i, []) => some i
  | _ => none

end Sys2Proof
end

