-- ==== Sys2Proof/Machine/Memory.lean ====
section
/-! DEFINITION. The memory buffer as data, and the operations on it. -/

namespace Sys2Proof.Machine

/-- The memory buffer as plain data: the cells whose byte is not `Memory.unlisted`, at strictly rising indices
(`Memory.wf`). Together with `Memory.unlisted` it is a total assignment of bytes to cells (R10). -/
abbrev Memory := List Host.Cell

/-- What a cell that the memory does not list holds: 0. DESIGN CHOICE (log entry 3; safe): a way of writing a memory
down, since every assignment of bytes to cells is exactly one canonical list. What the cells hold at start-up is not
decided here but by the seeding (R20). -/
def Memory.unlisted (_i : Nat) : Byte := 0

/-- The byte in cell `i`: every cell holds a definite byte, and reading changes nothing (R10, R26). -/
def Memory.read : Memory → Nat → Byte
  | [], i => Memory.unlisted i
  | c :: m, i => if c.1 = i then c.2 else Memory.read m i

/-- The memory with no entry for cell `i`. -/
def Memory.unlist : Memory → Nat → Memory
  | [], _ => []
  | c :: m, i => if c.1 = i then Memory.unlist m i else c :: Memory.unlist m i

/-- The memory with an entry for cell `i` put in its place by index. -/
def Memory.list : Memory → Nat → Byte → Memory
  | [], i, v => [(i, v)]
  | c :: m, i, v => if i < c.1 then (i, v) :: c :: m else c :: Memory.list m i v

/-- `mem[i] <- v`: cell `i` holds `v`, every other cell keeps its byte, and the form of the list is kept (R77, R78). -/
def Memory.write (m : Memory) (i : Nat) (v : Byte) : Memory :=
  if v = Memory.unlisted i then m.unlist i else (m.unlist i).list i v

/-- Strictly rising indices from `lo` up, none listed with the byte it would hold unlisted. -/
def Memory.wfFrom : Nat → Memory → Bool
  | _, [] => true
  | lo, c :: m => decide (lo ≤ c.1) && decide (c.2 ≠ Memory.unlisted c.1) && Memory.wfFrom (c.1 + 1) m

/-- The canonical form, in which equal memories are equal lists. -/
def Memory.wf (m : Memory) : Bool := Memory.wfFrom 0 m

/-- The `n` cells from `lo` up, cell `i` holding `f i`, in canonical form. -/
def Memory.ofCellsFrom (f : Nat → Byte) : Nat → Nat → Memory
  | _, 0 => []
  | lo, n + 1 =>
    if f lo = Memory.unlisted lo then Memory.ofCellsFrom f (lo + 1) n
    else (lo, f lo) :: Memory.ofCellsFrom f (lo + 1) n

/-- The memory of `n` cells in which cell `i` holds `f i`, in canonical form. -/
def Memory.ofCells (n : Nat) (f : Nat → Byte) : Memory := Memory.ofCellsFrom f 0 n

end Sys2Proof.Machine
end

