-- ==== Sys2Proof/Machine/State.lean ====
section
/-! DEFINITION. The state of the machine, the reasons a step can stop, and the state after reset. -/

namespace Sys2Proof.Machine

/-- Everything a step depends on. The hardware's state is `mem` alone (R10): no register, program counter, flag, mode
or control register exists (R12 to R18). -/
structure State where
  /-- The buffer length, fixed at start-up; no step changes it (R4, R15). -/
  config : Config
  /-- The memory buffer (R10). -/
  mem : Memory
  /-- INPUT. Entry addresses the host has already chosen for the coming steps, next one first (R103, R104). -/
  hostEntries : List Int
  /-- INPUT. How many entry addresses have been taken from the host's free draws `Config.hostEntry` (R103). -/
  hostDraws : Nat
  deriving DecidableEq, Repr

/-- No fault exists: "every operation in the core (resolution, fetch, compute, write) is total and cannot fail for
any input, by construction" (R81, R86, R88). Nothing raises one; safe. -/
inductive Fault where
  deriving DecidableEq, Repr

/-- The reasons for which the model gives an instruction no meaning. -/
inductive Refusal where
  /-- An instruction the model does not have yet, rejected by its mnemonic in `exec`. No arm raises it now: every
  instruction has its meaning. Safe. -/
  | notModelled (mnemonic : String)
  deriving DecidableEq, Repr

/-- The state after reset (R99): every cell holds the byte it was seeded with, of which nothing is known (R20: the free
value `Config.seedByte`, log entry 3), and nothing else exists to have a value (R21). DESIGN CHOICE: the canonical
length (log entry 1), and no entry address chosen by the host yet (log entry 2). Every length and every seeding is a
`State.start`. -/
def State.reset : State where
  config := Config.canonical
  mem := Memory.ofCells Config.canonical.L Config.seedByte
  hostEntries := []
  hostDraws := 0

end Sys2Proof.Machine
end

