-- ==== Sys2Proof/Machine/Ops.lean ====
section
/-! DEFINITION. The named operations of the state over memory and over the host's inputs. There is no exception entry and no return
from one among them: the hardware has neither (R86, R91, R92). -/

namespace Sys2Proof.Machine

/-- The buffer length of this machine (R4). -/
def State.L (s : State) : Nat := s.config.L

/-- The byte in cell `i` of the buffer. -/
def State.cell (s : State) (i : Nat) : Byte := s.mem.read i

/-- `mem[i] <- v` (R77). -/
def State.setCell (s : State) (i : Nat) (v : Byte) : State := { s with mem := s.mem.write i v }

/-- `MemRead(A, 1) = mem[resolve(L, A)]` (R22). -/
def State.memRead (s : State) (A : Int) : Byte := s.cell (resolve s.L A)

/-- `MemWrite(A, 1, v)`: `mem[resolve(L, A)] <- v` (R22). -/
def State.memWrite (s : State) (A : Int) (v : Byte) : State := s.setCell (resolve s.L A) v

/-- Bytes at consecutive logical addresses from `A` up, each through the resolver (R57). -/
def State.memWriteList : State → Int → List Byte → State
  | s, _, [] => s
  | s, A, v :: vs => State.memWriteList (s.memWrite A v) (A + 1) vs

/-- The entry address the host presents to the coming step: the next one it has chosen, else a free draw (R6, R13,
R103). It is constant during the step and no instruction can change it (R85). -/
def State.entry (s : State) : Int :=
  match s.hostEntries with
  | e :: _ => e
  | [] => Config.hostEntry s.hostDraws

/-- The inputs after a step: the entry address just used is gone, the next is the host's (R13, R85). -/
def State.dropEntry (s : State) : State :=
  match s.hostEntries with
  | _ :: es => { s with hostEntries := es }
  | [] => { s with hostDraws := s.hostDraws + 1 }

/-- The host chooses `e` for the coming step, before whatever it had chosen (R103, row execute). -/
def State.present (s : State) (e : Int) : State := { s with hostEntries := e :: s.hostEntries }

end Sys2Proof.Machine
end

