-- ==== Sys2Proof/Machine/Operands.lean ====
section
/-! DEFINITION. Sub-block 3, the operand-address pipeline: both addressing modes, for all three slots
(42_operand_address.md). -/

namespace Sys2Proof.Machine

/-- `raw(m, d) = m ? d : entry + d`, an exact integer sum (R7, R66): absolute, from the start of the buffer (R64);
relative, from the entry address itself, that of the opcode byte (R65). -/
def rawAddress (m : AddrMode) (entry d : Int) : Int :=
  match m with
  | .absolute => d
  | .relative => entry + d

/-- The index of a slot with this mode and displacement byte: `resolve(L, raw(m, sext_8(byte)))` (R66). The byte is
sign-extended in both modes (R39; log entry 5). -/
def State.slotIndex (s : State) (m : AddrMode) (b : Byte) : Nat :=
  resolve s.L (rawAddress m s.entry (sext8 b))

/-- A source operand: the slot's cell, dereferenced once; it stays an unsigned byte (R67, R71). -/
def State.sourceValue (s : State) (m : AddrMode) (b : Byte) : Byte := s.cell (s.slotIndex m b)

end Sys2Proof.Machine
end

