-- ==== Sys2Proof/Machine/Ssub.lean ====
section
/-! DEFINITION. Sub-block 5, the write-back, and the meaning of the one instruction (44_writeback_and_step.md). -/

namespace Sys2Proof.Machine

/-- `SSUB` (R79): both sources are read from the memory before the write, and the result is written to the
destination cell, always (R27, R77). Nothing else is written: no flag, no pc; nothing is raised, for any input. -/
def execSsub (m1 m2 md : AddrMode) (fn : BitVec 5) (i1 i2 i3 : Byte) (s : State) :
    Host.Outcome State Fault Refusal :=
  .next (s.setCell (s.slotIndex md i3) (alu fn (s.sourceValue m1 i1) (s.sourceValue m2 i2)))

end Sys2Proof.Machine
end

