-- ==== Sys2Proof/Machine/Dispatch.lean ====
section
/-! DEFINITION. One arm per instruction. -/

namespace Sys2Proof.Machine

def exec (i : Instr) (s : State) : Host.Outcome State Fault Refusal :=
  match i with
  | .ssub m1 m2 md fn i1 i2 i3 => Sys2Proof.Machine.execSsub m1 m2 md fn i1 i2 i3 s

end Sys2Proof.Machine
end

