-- ==== Sys2Proof/Machine/Fetch.lean ====
section
/-! DEFINITION. Sub-block 2, the instruction fetch (41_fetch_decode.md). -/

namespace Sys2Proof.Machine

/-- `fk = resolve(L, entry + k)`, an exact integer sum (R7, R56). -/
def State.fetchIndex (s : State) (k : Nat) : Nat := resolve s.L (s.entry + k)

/-- `Ik = MemRead(entry + k, 1)`: each instruction byte through its own resolution (R56, R57). -/
def State.fetchByte (s : State) (k : Nat) : Byte := s.memRead (s.entry + k)

/-- The instruction the coming step runs: four bytes, always (R58), decoded (R59 to R62). -/
def State.fetchInstr (s : State) : Instr :=
  decode (s.fetchByte 0) (s.fetchByte 1) (s.fetchByte 2) (s.fetchByte 3)

end Sys2Proof.Machine
end

