-- ==== Sys2Proof/Machine/Step.lean ====
section
/-! DEFINITION. One step of the machine, and where the host places an instruction to have the next step run it. -/

namespace Sys2Proof.Machine

/-- One step: the instruction at the entry address the host presents is fetched, decoded and executed, and that
entry address is used up (R79, R85). There is no program counter to advance (R13). -/
def step (s : State) : Host.Outcome State Fault Refusal :=
  match exec s.fetchInstr s with
  | .next t => .next t.dropEntry
  | .fault r => .fault r
  | .refused r => .refused r

/-- `s` with an instruction of the opcode table's word view where the next step fetches: at the entry address the
host has chosen, or, where it has chosen none, at 0, which it then chooses (log entry 7). -/
def State.withFetchWord (s : State) (nbits w : Nat) : State :=
  match s.hostEntries with
  | e :: _ => s.memWriteList e (tableWordBytes nbits w)
  | [] => (s.present 0).memWriteList 0 (tableWordBytes nbits w)

end Sys2Proof.Machine
end

