-- ==== Sys2Proof/Machine/Driver.lean ====
section
/-! DEFINITION. The host's moves (R103): seed, execute, observe, and the run of a finite list of entry addresses
(R104). Configuring is `Config.ofLength?`; terminating is to issue no further step (R95). -/

namespace Sys2Proof.Machine

/-- The state at start-up: the buffer of length `L` seeded with the byte `f i` in cell `i`, and the entry addresses
`es` chosen (R20, R99, R102, R103). -/
def State.start (c : Config) (f : Nat → Byte) (es : List Int) : State where
  config := c
  mem := Memory.ofCells c.L f
  hostEntries := es
  hostDraws := 0

/-- The host issues one entry address: one whole instruction runs at it (R79, R103). -/
def State.execute (s : State) (e : Int) : Host.Outcome State Fault Refusal := step (s.present e)

/-- The same through a finite entry port of `ew` bits, two's complement: only the presented integers are fewer (R6;
log entry 8). -/
def State.executePort {ew : Nat} (s : State) (b : BitVec ew) : Host.Outcome State Fault Refusal := s.execute b.toInt

/-- The host reads every cell between steps, lowest index first (R32, R103). -/
def State.observe (s : State) : List Byte := (List.range s.L).map s.cell

/-- A run: a finite list of entry addresses, applied in order; the result is the state after the last step, and the
state itself for no entry address (R31, R104). -/
def State.runEntries : State → List Int → Host.Outcome State Fault Refusal
  | s, [] => .next s
  | s, e :: es =>
    match s.execute e with
    | .next t => State.runEntries t es
    | .fault r => .fault r
    | .refused r => .refused r

end Sys2Proof.Machine
end

