-- ==== Sys2Proof/Machine/Asm.lean ====
section
/-! DEFINITION. The spec's own assembler syntax (R43, R44, D11): a notation for its examples, no part of the
hardware. Statements, their bytes, their text, and a listing placed in memory with the entry addresses of its run. -/

namespace Sys2Proof.Machine

/-- An operand as written: `.+n` or `.-n` relative, `@n` absolute (R43). -/
inductive AsmOperand where
  | rel (n : Int)
  | abs (n : Int)
  deriving DecidableEq, Repr

/-- `ssub/k S1, S2, D` (R43). -/
structure AsmStmt where
  fn : Nat
  s1 : AsmOperand
  s2 : AsmOperand
  d : AsmOperand
  deriving DecidableEq, Repr

/-- One line of a listing (R43). -/
inductive AsmItem where
  | stmt (t : AsmStmt)
  | byte (v : Byte)
  | org (n : Nat)
  deriving DecidableEq, Repr

/-- A listing with its `run:` line (R43, R104). -/
structure AsmProgram where
  items : List AsmItem
  run : List Int
  deriving DecidableEq, Repr

/-- The mode an operand's spelling chooses (R43). -/
def AsmOperand.mode : AsmOperand → AddrMode
  | .rel _ => .relative
  | .abs _ => .absolute

/-- The displacement an operand is written with. -/
def AsmOperand.disp : AsmOperand → Int
  | .rel n => n
  | .abs n => n

/-- A displacement fits its byte: `-128 .. 127` (R43). -/
def AsmOperand.wellFormed (o : AsmOperand) : Bool := decide (-128 ≤ o.disp) && decide (o.disp ≤ 127)

/-- Each displacement fits, and `k` is in `0 .. 31` (R43). -/
def AsmStmt.wellFormed (t : AsmStmt) : Bool :=
  decide (t.fn ≤ 31) && t.s1.wellFormed && t.s2.wellFormed && t.d.wellFormed

/-- The mode bit as a number. -/
def AsmOperand.modeNat (o : AsmOperand) : Nat := o.mode.toBit.toNat

/-- The assembled bytes: `I0 = m1*128 + m2*64 + md*32 + k`, then each displacement modulo 256 (R43). -/
def AsmStmt.bytes (t : AsmStmt) : List Byte :=
  [BitVec.ofNat 8 (t.s1.modeNat * 128 + t.s2.modeNat * 64 + t.d.modeNat * 32 + t.fn),
    BitVec.ofInt 8 t.s1.disp, BitVec.ofInt 8 t.s2.disp, BitVec.ofInt 8 t.d.disp]

/-- The operand a mode and a displacement byte are spelled as (R43, R61). -/
def AsmOperand.ofSlot (m : AddrMode) (b : Byte) : AsmOperand :=
  match m with
  | .relative => .rel (sext8 b)
  | .absolute => .abs (sext8 b)

/-- The statement an instruction is spelled as (R43). -/
def disassemble : Instr → AsmStmt
  | .ssub m1 m2 md fn i1 i2 i3 => ⟨fn.toNat, .ofSlot m1 i1, .ofSlot m2 i2, .ofSlot md i3⟩

/-- The text of an operand (R43). -/
def AsmOperand.text : AsmOperand → String
  | .rel n => (if n < 0 then ".-" else ".+") ++ toString n.natAbs
  | .abs n => (if n < 0 then "@-" else "@") ++ toString n.natAbs

/-- The text of a statement; `/k` is left out where `k` is 0 (R43). -/
def AsmStmt.text (t : AsmStmt) : String :=
  "ssub" ++ (if t.fn = 0 then "" else "/" ++ toString t.fn) ++ " " ++ t.s1.text ++ ", " ++ t.s2.text ++ ", " ++ t.d.text

/-- The lines of a listing placed in memory in their order, the next byte going to address `at_`; an instruction near
the top of the buffer wraps (R43, R57). DESIGN CHOICE (log entry 14): where two lines place a byte in one cell, the
later line's byte stays; the spec does not say. -/
def asmPlace : List AsmItem → Int → State → State
  | [], _, s => s
  | .stmt t :: r, at_, s => asmPlace r (at_ + 4) (s.memWriteList at_ t.bytes)
  | .byte v :: r, at_, s => asmPlace r (at_ + 1) (s.memWrite at_ v)
  | .org n :: r, _, s => asmPlace r n s

/-- A listing as a machine at start-up: "the initial contents are the program" (R102), its `run:` line the entry
addresses the host issues (R104). DESIGN CHOICE, each (log entry 14): a line before any `.org` is placed from address
0 up, since R43 gives an index only to what follows an `.org`; and a cell no line places holds 0, as in the listings of
95_test_vectors.md. -/
def AsmProgram.load (p : AsmProgram) (c : Config) : State := asmPlace p.items 0 (State.start c (fun _ => 0) p.run)

end Sys2Proof.Machine
end

