-- ==== Sys2Proof/Safety.lean ====
section
/-! DEFINITION. What claims about the machine are stated in: the invariant of a state, the bytes and wires of the
spec's pseudocode for one step, and that pseudocode as one function of memory, length and entry address. -/

namespace Sys2Proof.Machine

/-- The invariant every step keeps: the memory is in canonical form, and every listed cell is a cell of the buffer
(R10, R19). -/
abbrev State.Inv (s : State) : Prop := s.mem.wf = true ∧ ∀ c ∈ s.mem, c.1 < s.L

/-- The pseudocode of R79, line by line, as the function `(mem, L, entry) -> mem'` of R81: the mode bits are tested
on the opcode byte itself, and every read is of the memory before the step. -/
def stepMem (L : Nat) (mem : Memory) (entry : Int) : Memory :=
  let I0 := mem.read (resolve L (entry + 0))
  let I1 := mem.read (resolve L (entry + 1))
  let I2 := mem.read (resolve L (entry + 2))
  let I3 := mem.read (resolve L (entry + 3))
  let d1 := sext8 I1
  let d2 := sext8 I2
  let dd := sext8 I3
  let a1 := resolve L (if I0.getLsbD 7 then d1 else entry + d1)
  let a2 := resolve L (if I0.getLsbD 6 then d2 else entry + d2)
  let ad := resolve L (if I0.getLsbD 5 then dd else entry + dd)
  let v1 := mem.read a1
  let v2 := mem.read a2
  let r := if v1.toNat > v2.toNat then BitVec.ofNat 8 (v1.toNat - v2.toNat) else 0
  mem.write ad r

/-- The cell a step at this state writes: the destination slot of the fetched instruction (R66, R77). -/
def State.destIndex (s : State) : Nat :=
  s.slotIndex (.ofBit ((s.fetchByte 0).getLsbD 5)) (s.fetchByte 3)

/-- The first of the two cells a step at this state reads as sources (R66, R67). -/
def State.sourceIndex1 (s : State) : Nat :=
  s.slotIndex (.ofBit ((s.fetchByte 0).getLsbD 7)) (s.fetchByte 1)

/-- The second of them. -/
def State.sourceIndex2 (s : State) : Nat :=
  s.slotIndex (.ofBit ((s.fetchByte 0).getLsbD 6)) (s.fetchByte 2)

/-- The byte a step at this state writes (R72, R79). -/
def State.resultByte (s : State) : Byte := ssub8 (s.cell s.sourceIndex1) (s.cell s.sourceIndex2)

end Sys2Proof.Machine
end

