-- ==== Sys2Proof/Certificates/Slice0/Obligations.lean ====
section
/-! DEFINITION. The statements for the provers, each from the rules of spec/ its docstring names. -/

open Sys2Proof Sys2Proof.Machine

/-! ### The address resolver -/

/-- R46: the resolver's contract, that it determines the index, the closed form, and the worked example. -/
def Obligations.ResolverIsFlooredModulo : Prop :=
  (∀ (L : Nat) (A : Int), 0 < L →
    resolve L A < L ∧ (L : Int) ∣ (resolve L A : Int) - A ∧
    (∀ i : Int, 0 ≤ i → i < L → (L : Int) ∣ i - A → i = resolve L A) ∧
    (resolve L A : Int) = A - L * A.fdiv L) ∧
  resolve 8 (-3) = 5

/-- R47: with enough turns the reference loops end, and they end with the value of the closed form. -/
def Obligations.ReferenceLoopMatchesResolver : Prop :=
  ∀ (L : Nat) (A : Int), 0 < L →
    ∃ n, ∀ up down, n ≤ up → n ≤ down → resolveLoop up down L A = some (resolve L A : Int)

/-- R48: against the truncated remainder, case by case. -/
def Obligations.ResolverIsNotTruncatedRemainder : Prop :=
  ∀ (L : Nat) (A : Int), 0 < L →
    (0 ≤ A → (resolve L A : Int) = A.tmod L) ∧
    (A < 0 → ¬ (L : Int) ∣ A → A.tmod L < 0 ∧ (resolve L A : Int) = A.tmod L + L) ∧
    (A < 0 → (L : Int) ∣ A → A.tmod L = 0 ∧ resolve L A = 0)

/-- R51: correctness, idempotence, and an address in range returned unchanged. -/
def Obligations.ResolverCorrectAndIdempotent : Prop :=
  ∀ (L : Nat) (A : Int), 0 < L →
    (0 ≤ (resolve L A : Int) ∧ (resolve L A : Int) < L ∧ (A - resolve L A) % (L : Int) = 0) ∧
    resolve L (resolve L A) = resolve L A ∧
    (0 ≤ A → A < L → (resolve L A : Int) = A)

/-- R52, R53 (both inferences the spec draws from R46): periodicity, one cell exactly for congruent addresses, and
that the reduction may be done early. -/
def Obligations.ResolverPeriodicAndEarly : Prop :=
  ∀ (L : Nat) (A B k : Int), 0 < L →
    resolve L (A + k * L) = resolve L A ∧
    (resolve L A = resolve L B ↔ (L : Int) ∣ A - B) ∧
    resolve L (A + B) = resolve L (resolve L A + B)

/-- R54 (an inference the spec draws from R46): for a power of two the resolver takes the low bits of the two's
complement form of the address at any sufficient width; and the spec's two examples at -1. -/
def Obligations.PowerOfTwoResolverTakesLowBits : Prop :=
  (∀ (n w : Nat) (A : Int), n ≤ w → resolve (2 ^ n) A = ((BitVec.ofInt w A).setWidth n).toNat) ∧
  resolve 1024 (-1) = 1023 ∧ resolve 1000 (-1) = 999

/-- R55 (an inference the spec draws from R47): with the entry address in range, every address of a step is reduced
within `ceil(128 / L)` additions alone or `1 + floor(126 / L)` subtractions alone. -/
def Obligations.LoopTurnsOfOneStepAreBounded : Prop :=
  ∀ (s : State) (A : Int), 0 ≤ s.entry → s.entry < s.L →
    ((∃ k : Nat, k < 4 ∧ A = s.entry + k) ∨ ∃ m b, A = rawAddress m s.entry (sext8 b)) →
    (A < 0 → resolveLoop ((128 + s.L - 1) / s.L) 0 s.L A = some (resolve s.L A : Int)) ∧
    ((s.L : Int) ≤ A → resolveLoop 0 (1 + 126 / s.L) s.L A = some (resolve s.L A : Int)) ∧
    (0 ≤ A → A < s.L → resolveLoop 0 0 s.L A = some (resolve s.L A : Int))

/-- R5: the index width holds every index a resolution gives, and no smaller width holds every index of the buffer;
it is 0 for one cell. -/
def Obligations.IndexWidthIsExact : Prop :=
  (∀ (L : Nat) (A : Int), 0 < L → resolve L A < 2 ^ indexWidth L) ∧
  (∀ L w : Nat, (∀ i, i < L → i < 2 ^ w) → indexWidth L ≤ w) ∧ indexWidth 1 = 0

/-! ### Encoding and decoding -/

/-- R35, R36, R41: decoding the bytes of a well-formed instruction gives it back, every field at every value. -/
def Obligations.DecodeEncodeRoundTrip : Prop :=
  ∀ (i : Instr) (rest : List Byte), i.wellFormed = true → decodeBytes (encode i ++ rest) = .ok (i, rest)

/-- R35, R41: encoding what four bytes decode to gives the four bytes back: no bit is dropped, none is shared. -/
def Obligations.EncodeDecodeRoundTrip : Prop :=
  ∀ i0 i1 i2 i3 : Byte, encode (decode i0 i1 i2 i3) = [i0, i1, i2, i3]

/-- R36, R38, R59: which bits of the opcode byte are the mode bits, as bits and as arithmetic, their polarity, and
the reserved field below them. -/
def Obligations.OpcodeByteUnpacking : Prop :=
  ∀ i0 i1 i2 i3 : Byte, ∃ m1 m2 md fn, decode i0 i1 i2 i3 = .ssub m1 m2 md fn i1 i2 i3 ∧
    (m1 = .absolute ↔ i0.getLsbD 7 = true) ∧ (m1 = .relative ↔ i0.getLsbD 7 = false) ∧
    (m2 = .absolute ↔ i0.getLsbD 6 = true) ∧ (m2 = .relative ↔ i0.getLsbD 6 = false) ∧
    (md = .absolute ↔ i0.getLsbD 5 = true) ∧ (md = .relative ↔ i0.getLsbD 5 = false) ∧
    m1.toBit.toNat = i0.toNat / 128 ∧ m2.toBit.toNat = i0.toNat / 64 % 2 ∧
    md.toBit.toNat = i0.toNat / 32 % 2 ∧ fn.toNat = i0.toNat % 32

/-- R9, R39, R61: a displacement byte's signed value. The two's complement reading is marked by R9 as general
knowledge (log entry 4), and that it holds in absolute mode too is the spec's decision D5 (log entry 5). -/
def Obligations.DisplacementIsTwosComplement : Prop :=
  ∀ b : Byte,
    sext8 b = (b.toNat : Int) - 256 * ((b.getLsbD 7).toNat : Int) ∧ -128 ≤ sext8 b ∧ sext8 b ≤ 127 ∧
    (b.toNat ≤ 127 → sext8 b = b.toNat) ∧ (127 < b.toNat → sext8 b = (b.toNat : Int) - 256) ∧
    ∀ s : State, s.slotIndex .absolute b = resolve s.L (sext8 b) ∧
      s.slotIndex .relative b = resolve s.L (s.entry + sext8 b)

/-- R60: `fn` is the opcode modulo 32, and everything downstream ignores it: two opcodes with the same top three
bits give the same outcome in every state. -/
def Obligations.ReservedFieldIsIgnored : Prop :=
  ∀ (i0 j0 i1 i2 i3 : Byte) (s : State),
    (∃ m1 m2 md fn, decode i0 i1 i2 i3 = .ssub m1 m2 md fn i1 i2 i3 ∧ fn.toNat = i0.toNat % 32) ∧
    (i0.toNat / 32 = j0.toNat / 32 → exec (decode i0 i1 i2 i3) s = exec (decode j0 i1 i2 i3) s)

/-- R40 (the spec's decision D10; log entry 7): the opcode table's word view, field by field. -/
def Obligations.TableWordFields : Prop :=
  ∀ w : BitVec 32, decodeTableWord 32 w.toNat =
    some (.ssub (.ofBit (w.getLsbD 31)) (.ofBit (w.getLsbD 30)) (.ofBit (w.getLsbD 29)) (w.extractLsb' 24 5)
      (w.extractLsb' 16 8) (w.extractLsb' 8 8) (w.extractLsb' 0 8))

/-- R35, R36, R38: words written out from the format table (95_test_vectors.md sections 3.2 and 4). -/
def Obligations.KnownWordsDecode : Prop :=
  decodeBytes [0xE0, 0x0C, 0x0F, 0x0E] = .ok (.ssub .absolute .absolute .absolute 0 0x0C 0x0F 0x0E, []) ∧
  decodeBytes [0x40, 0xFE, 0xFC, 0x05] = .ok (.ssub .relative .absolute .relative 0 0xFE 0xFC 0x05, []) ∧
  decodeBytes [0xA0, 0x80, 0x7F, 0xFF] = .ok (.ssub .absolute .relative .absolute 0 0x80 0x7F 0xFF, []) ∧
  decodeBytes [0x7B, 0x01, 0x02, 0x03] = .ok (.ssub .relative .absolute .absolute 27 0x01 0x02 0x03, [])

/-- R43 (the spec's decision D11, notation only; log entry 14): every instruction is spelled by a well-formed
statement whose bytes are its encoding, and a well-formed statement's bytes decode to an instruction spelled so. -/
def Obligations.AssemblerAgreesWithEncoding : Prop :=
  (∀ i : Instr, (disassemble i).wellFormed = true ∧ (disassemble i).bytes = encode i) ∧
  ∀ t : AsmStmt, t.wellFormed = true → ∃ i, decodeBytes t.bytes = .ok (i, []) ∧ disassemble i = t

/-! ### Memory -/

/-- R22, R23: a byte written at one logical address is read at every address congruent to it modulo the length, and
every other address reads as before. -/
def Obligations.ReadAfterWriteByCongruence : Prop :=
  ∀ (s : State) (A B : Int) (v : Byte),
    ((s.L : Int) ∣ B - A → (s.memWrite A v).memRead B = v) ∧
    (¬ (s.L : Int) ∣ B - A → (s.memWrite A v).memRead B = s.memRead B)

/-- The model's memory form (log entry 3), for R10: two states that meet the invariant and agree on every cell of a
buffer of the same length hold equal memories. -/
def Obligations.EqualCellsAreEqualMemory : Prop :=
  ∀ s t : State, s.Inv → t.Inv → s.L = t.L → (∀ i, i < s.L → s.cell i = t.cell i) → s.mem = t.mem

/-- R19: every index of a step is in the buffer, and no step changes what stands outside it. -/
def Obligations.EveryAccessIsInTheBuffer : Prop :=
  ∀ s : State, (∀ k, s.fetchIndex k < s.L) ∧ (∀ m b, s.slotIndex m b < s.L) ∧
    ∀ t, step s = .next t → ∀ i, s.L ≤ i → t.cell i = s.cell i

/-- R57: the four bytes are wrapped one by one, contiguous before wrapping; the example at the top of the buffer and
the coincidences of the small lengths. -/
def Obligations.FetchWrapsByteByByte : Prop :=
  ∀ s : State,
    (∀ k, s.fetchByte k = s.cell (s.fetchIndex k)) ∧
    (∀ k, s.fetchIndex (k + 1) = (s.fetchIndex k + 1) % s.L) ∧
    (2 ≤ s.L → s.fetchIndex 0 = s.L - 2 →
      s.fetchIndex 1 = s.L - 1 ∧ s.fetchIndex 2 = 0 ∧ s.fetchIndex 3 = 1) ∧
    (s.L = 3 → s.fetchIndex 3 = s.fetchIndex 0 ∧ s.fetchByte 3 = s.fetchByte 0) ∧
    (s.L = 2 → s.fetchByte 2 = s.fetchByte 0 ∧ s.fetchByte 3 = s.fetchByte 1) ∧
    (s.L = 1 → ∀ k, s.fetchIndex k = 0)

/-! ### Operand addresses -/

/-- R70: the relative and the absolute index of one displacement byte, that they are equal exactly when the entry
address is 0 modulo the length, and the source-1 address under either value of opcode bit 7. -/
def Obligations.ModesAgreeExactlyAtMultiplesOfLength : Prop :=
  ∀ (s : State) (b : Byte),
    s.slotIndex .relative b = resolve s.L (s.entry + sext8 b) ∧ s.slotIndex .absolute b = resolve s.L (sext8 b) ∧
    (s.slotIndex .relative b = s.slotIndex .absolute b ↔ s.entry % (s.L : Int) = 0) ∧
    ((s.fetchByte 0).getLsbD 7 = false → s.sourceIndex1 = resolve s.L (s.entry + sext8 (s.fetchByte 1))) ∧
    ((s.fetchByte 0).getLsbD 7 = true → s.sourceIndex1 = resolve s.L (sext8 (s.fetchByte 1)))

/-- R68 (an inference the spec draws from R64 and R65; it rests on D5 and D19, log entries 4 and 5): the reach of the
modes. -/
def Obligations.ReachOfTheAddressingModes : Prop :=
  ∀ s : State,
    (s.L ≤ 256 → ∀ m, ∀ i, i < s.L → ∃ b, s.slotIndex m b = i) ∧
    (256 ≤ s.L → ∀ i, i < s.L → ((∃ b, s.slotIndex .absolute b = i) ↔ i ≤ 127 ∨ s.L - 128 ≤ i)) ∧
    (∀ i, (∃ b, s.slotIndex .relative b = i) ↔
      ∃ A : Int, s.entry - 128 ≤ A ∧ A ≤ s.entry + 127 ∧ resolve s.L A = i)

/-- R69 (an inference the spec draws from R66): an issued entry address matters only modulo the length; it may be
reduced first. -/
def Obligations.StepDependsOnEntryModuloLength : Prop :=
  ∀ (s : State) (e k : Int), s.execute (e + k * s.L) = s.execute e ∧ s.execute (resolve s.L e) = s.execute e

/-! ### The ALU -/

/-- R72: saturating unsigned subtraction, in its two forms and its range. That bytes compare as unsigned is a choice on
an open question of the source (R73, D6; log entry 6). The clauses with `borrowMux` and `borrow` are R72's rendering by
a 9-bit difference whose borrow selects: "this rendering is the spec's own and adds no behaviour". -/
def Obligations.SaturatingSubtraction : Prop :=
  ∀ a b : Byte,
    (b.toNat < a.toNat → (ssub8 a b).toNat = a.toNat - b.toNat) ∧ (a.toNat ≤ b.toNat → ssub8 a b = 0) ∧
    ((ssub8 a b).toNat : Int) = max 0 ((a.toNat : Int) - b.toNat) ∧
    (ssub8 a b).toNat ≤ a.toNat ∧ ssub8 a b = borrowMux a b ∧ (borrow a b = true ↔ a.toNat < b.toNat)

/-- R75 (inferences the spec draws from R72), R76 (the spec's decision D16, log entry 9): the laws of the operation,
which every value of `fn` selects. -/
def Obligations.SubtractionLaws : Prop :=
  (∀ a b c : Byte,
    ssub8 a a = 0 ∧ ssub8 a 0 = a ∧ ssub8 0 b = 0 ∧ ssub8 a b ≤ a ∧ (ssub8 a b = 0 ↔ a ≤ b) ∧
    (0 < ssub8 a b → ssub8 b a = 0) ∧
    ssub8 (ssub8 a b) c = ssub8 a (BitVec.ofNat 8 (min 255 (b.toNat + c.toNat)))) ∧
  (∀ (fn : BitVec 5) (a b : Byte), alu fn a b = ssub8 a b) ∧
  ¬ (∀ a b : Byte, ssub8 a b = ssub8 b a) ∧
  ¬ ∃ g : Byte → Byte × Byte, ∀ a b : Byte, g (ssub8 a b) = (a, b)

/-! ### The instruction and the step -/

/-- R77, R78: `SSUB` completes in every state, in every form; the destination cell takes the result, every other cell,
the configuration and the host's inputs are unchanged. -/
def Obligations.SsubCompletesAndWritesOneCell : Prop :=
  ∀ (m1 m2 md : AddrMode) (fn : BitVec 5) (i1 i2 i3 : Byte) (s : State),
    ∃ t, exec (.ssub m1 m2 md fn i1 i2 i3) s = .next t ∧
      t.config = s.config ∧ t.hostEntries = s.hostEntries ∧ t.hostDraws = s.hostDraws ∧
      ∀ j, t.cell j =
        if j = resolve s.L (if md = .absolute then sext8 i3 else s.entry + sext8 i3) then
          ssub8 (s.cell (resolve s.L (if m1 = .absolute then sext8 i1 else s.entry + sext8 i1)))
            (s.cell (resolve s.L (if m2 = .absolute then sext8 i2 else s.entry + sext8 i2)))
        else s.cell j

/-- R86, R87: there is no fault to raise, every four-byte pattern is `SSUB`, and it executes in every state. -/
def Obligations.EveryPatternExecutes : Prop :=
  (Fault → False) ∧
  ∀ (i0 i1 i2 i3 : Byte) (s : State),
    (∃ m1 m2 md fn, decode i0 i1 i2 i3 = .ssub m1 m2 md fn i1 i2 i3) ∧
    (∃ t, exec (decode i0 i1 i2 i3) s = .next t) ∧ ∃ t, step s = .next t

/-- R56 and R79: when the four bytes at the entry address decode to a well-formed instruction, the step is that
instruction's outcome with the entry address used up. That the host's next entry address then comes from its list, or
from its draws where the list is empty, is the model's (log entry 2). -/
def Obligations.StepRunsTheDecodedInstruction : Prop :=
  ∀ (s : State) (i : Instr), i.wellFormed = true →
    decodeBytes [s.cell (resolve s.L (s.entry + 0)), s.cell (resolve s.L (s.entry + 1)),
      s.cell (resolve s.L (s.entry + 2)), s.cell (resolve s.L (s.entry + 3))] = .ok (i, []) →
    step s =
      match exec i s with
      | .next t =>
        match s.hostEntries with
        | _ :: es => .next { t with hostEntries := es }
        | [] => .next { t with hostDraws := s.hostDraws + 1 }
      | .fault r => .fault r
      | .refused r => .refused r

/-- R79: the step is the rule's pseudocode. Fetch, decode, operand pipeline, ALU, write-back and dispatch together
refine `stepMem`, which transcribes the pseudocode over memory, length and entry address; the configuration is
unchanged, and the hardware has no other state. (What `sext8` computes is stated apart, log entry 4; what becomes of
the host's inputs too, log entry 2.) -/
def Obligations.StepFollowsThePseudocode : Prop :=
  ∀ s : State, ∃ t, step s = .next t ∧ t.mem = stepMem s.L s.mem s.entry ∧ t.config = s.config

/-- R80: exactly one cell is written, the resolved destination; it takes the result, every other cell keeps its byte,
at most one byte differs afterwards, and it differs only if the result is not its old value. -/
def Obligations.SingleWriteGuarantee : Prop :=
  ∀ s : State, ∃ t, step s = .next t ∧ t.cell s.destIndex = s.resultByte ∧
    (∀ i, i ≠ s.destIndex → t.cell i = s.cell i) ∧
    (∀ i, t.cell i ≠ s.cell i → i = s.destIndex) ∧
    ((∃ i, t.cell i ≠ s.cell i) ↔ s.resultByte ≠ s.cell s.destIndex)

/-- R81: the step is a total, deterministic function of memory, length and entry address, with no outcome but the
next memory. -/
def Obligations.StepIsAFunctionOfMemoryLengthEntry : Prop :=
  ∃ f : Nat → Memory → Int → Memory, ∀ s : State, ∃ t, step s = .next t ∧ t.mem = f s.L s.mem s.entry

/-- R26, R27 (their order is the spec's decision D8): a step reads six cells. Two states of one length and entry
address that agree on those six cells write the same byte to the same cell, and differ after the step only where they
differed before. -/
def Obligations.StepReadsOnlySixCells : Prop :=
  ∀ s s' : State, s.config = s'.config → s.entry = s'.entry →
    (∀ k, k < 4 → s.cell (s.fetchIndex k) = s'.cell (s.fetchIndex k)) →
    s.cell s.sourceIndex1 = s'.cell s.sourceIndex1 → s.cell s.sourceIndex2 = s'.cell s.sourceIndex2 →
    ∃ t t', step s = .next t ∧ step s' = .next t' ∧ s'.destIndex = s.destIndex ∧
      t'.cell s.destIndex = t.cell s.destIndex ∧
      ∀ j, t.cell j ≠ t'.cell j → j ≠ s.destIndex ∧ s.cell j ≠ s'.cell j

/-- R82 (inferences the spec draws from R27 and R79): the cases of aliasing. -/
def Obligations.AliasingFollowsReadThenWrite : Prop :=
  ∀ s : State, ∃ t, step s = .next t ∧
    (s.sourceIndex1 = s.sourceIndex2 → t.cell s.destIndex = 0) ∧
    (s.destIndex = s.sourceIndex1 → t.cell s.destIndex = ssub8 (s.cell s.destIndex) (s.cell s.sourceIndex2)) ∧
    (s.destIndex = s.sourceIndex2 → t.cell s.destIndex = ssub8 (s.cell s.sourceIndex1) (s.cell s.destIndex)) ∧
    (∀ k, s.destIndex = s.fetchIndex k → (t.present s.entry).fetchByte k = s.resultByte) ∧
    (∀ k, s.sourceIndex1 = s.fetchIndex k → s.resultByte = ssub8 (s.fetchByte k) (s.cell s.sourceIndex2)) ∧
    (∀ k, s.sourceIndex2 = s.fetchIndex k → s.resultByte = ssub8 (s.cell s.sourceIndex1) (s.fetchByte k)) ∧
    (s.L = 1 → t.cell 0 = 0)

/-- R83 (an inference the spec draws from R79): memory is unchanged exactly when the result is what the destination
already holds, and the pattern `00 xx 00 xx` changes nothing in any memory. -/
def Obligations.StepsThatChangeNothing : Prop :=
  ∀ s : State, s.Inv → ∃ t, step s = .next t ∧ (t.mem = s.mem ↔ s.resultByte = s.cell s.destIndex) ∧
    (s.fetchByte 0 = 0 → s.fetchByte 2 = 0 → s.fetchByte 1 = s.fetchByte 3 → t.mem = s.mem)

/-- R44 (the spec's decision D11, from R79): `nop` changes nothing; `clr D` clears its destination whatever the memory
holds and nothing else; a subtraction of a cell that holds 0 copies; and the bytes the rule gives them. -/
def Obligations.NopClrAndCopy : Prop :=
  encode .nop = [0, 0, 0, 0] ∧
  (∀ b, encode (.clr .relative b) = [0, 0, 0, b] ∧ encode (.clr .absolute b) = [0x20, 0, 0, b]) ∧
  (∀ s : State, s.fetchInstr = .nop → ∃ t, step s = .next t ∧ ∀ j, t.cell j = s.cell j) ∧
  (∀ (s : State) (md : AddrMode) (b : Byte), ∃ t, exec (.clr md b) s = .next t ∧
    t.cell (s.slotIndex md b) = 0 ∧ ∀ j, j ≠ s.slotIndex md b → t.cell j = s.cell j) ∧
  (∀ (s : State) (m1 m2 md : AddrMode) (fn : BitVec 5) (i1 i2 i3 : Byte), s.cell (s.slotIndex m2 i2) = 0 →
    ∃ t, exec (.ssub m1 m2 md fn i1 i2 i3) s = .next t ∧ t.cell (s.slotIndex md i3) = s.cell (s.slotIndex m1 i1))

/-- The opcode table's word placed where the next step fetches (log entry 7), in a buffer with room for it: the table's
word always decodes, and the next step is that instruction's. -/
def Obligations.PlacedWordIsTheNextInstruction : Prop :=
  ∀ (s : State) (nbits w : Nat), 4 ≤ s.L →
    ∃ i, decodeTableWord nbits w = some i ∧ (s.withFetchWord nbits w).fetchInstr = i ∧
      ∃ t, exec i (s.withFetchWord nbits w) = .next t ∧ step (s.withFetchWord nbits w) = .next t.dropEntry

/-! ### Invariants -/

/-- The invariant (memory in canonical form, every listed cell in the buffer: R10, R19) is kept by every step. -/
def Obligations.StepKeepsMemoryForm : Prop :=
  ∀ s t : State, s.Inv → step s = .next t → t.Inv

/-- The invariant holds at reset, whatever the memory is seeded with (the seeding is a free value, log entry 3). -/
def Obligations.ResetMeetsMemoryForm : Prop := State.reset.Inv

/-- R4, R15: no run changes the buffer length. -/
def Obligations.LengthIsFixedForLife : Prop :=
  ∀ (es : List Int) (s : State), ∃ t, s.runEntries es = .next t ∧ t.config = s.config ∧ t.L = s.L

/-- R84 (an inference the spec draws from R79 and R75): the all-zero memory is a fixed point for every entry address,
and over any run no byte becomes larger than a bound on all bytes present before. -/
def Obligations.MaximumByteNeverIncreases : Prop :=
  (∀ s : State, (∀ i, i < s.L → s.cell i = 0) →
    s.destIndex = resolve s.L s.entry ∧ ∃ t, step s = .next t ∧ ∀ i, i < t.L → t.cell i = 0) ∧
  ∀ (es : List Int) (s : State) (bound : Byte), (∀ i, i < s.L → s.cell i ≤ bound) →
    ∃ t, s.runEntries es = .next t ∧ ∀ i, i < t.L → t.cell i ≤ bound

/-! ### Start-up, the host and runs -/

/-- R50 (the spec's decision D14), R102: a machine exists for every length from 1 up, and for no other. -/
def Obligations.ConfigurationRefusesOnlyZero : Prop :=
  ∀ n : Nat, (Config.ofLength? n = none ↔ n = 0) ∧ ∀ c, Config.ofLength? n = some c → c.L = n ∧ 0 < c.L

/-- R20, R99, R102 (R20 and R99 rest on the spec's decision D9): a machine can start from every length and every
assignment of bytes to its cells, and the host reads back exactly the bytes it seeded. -/
def Obligations.EverySeedingIsAStart : Prop :=
  ∀ (c : Config) (f : Nat → Byte) (es : List Int),
    (State.start c f es).Inv ∧ (State.start c f es).L = c.L ∧ (∀ i, i < c.L → (State.start c f es).cell i = f i) ∧
    (State.start c f es).observe = (List.range c.L).map f ∧ (State.start c f es).hostEntries = es

/-- What the model's reset state is: every cell holds its seeded byte, of which nothing is known (R20; the free value of
log entry 3), so this holds of every seeding; the length and the empty input are the model's choices (log entries 1,
2). -/
def Obligations.ResetStateOfTheModel : Prop :=
  State.reset.L = 1024 ∧ (∀ i, i < 1024 → State.reset.cell i = Config.seedByte i) ∧ State.reset.hostEntries = [] ∧
  State.reset = State.start Config.canonical Config.seedByte []

/-- R13, R85, R103: the entry address of a step is the host's, in the order it chose them, each used once; it may be
any integer; and no memory content influences which one comes next. That an empty list falls back to the free draws is
the model's (log entry 2); this holds whatever the draws are. -/
def Obligations.EntryAddressesComeFromTheHostAlone : Prop :=
  (∀ (s : State) (e : Int), (s.present e).entry = e) ∧
  (∀ s : State, ∃ t, step s = .next t ∧
    (∀ e es, s.hostEntries = e :: es → s.entry = e ∧ t.hostEntries = es ∧ t.hostDraws = s.hostDraws) ∧
    (s.hostEntries = [] → s.entry = Config.hostEntry s.hostDraws ∧ t.hostEntries = [] ∧
      t.hostDraws = s.hostDraws + 1)) ∧
  ∀ s s' : State, s.hostEntries = s'.hostEntries → s.hostDraws = s'.hostDraws →
    ∃ t t', step s = .next t ∧ step s' = .next t' ∧ t.entry = t'.entry

/-- R6, R7 (a finite port is the spec's decision D3; log entry 8): a port of finite width presents every integer of its
two's complement range, an address presented on it runs as that integer does, so a wider port presenting the same
address changes nothing, and the address may be reduced before use. -/
def Obligations.FinitePortOnlyRestrictsEntries : Prop :=
  ∀ (ew : Nat) (s : State),
    (∀ e : Int, -2 ^ ew ≤ e → e < 2 ^ ew → ∃ b : BitVec (ew + 1), s.executePort b = s.execute e) ∧
    ∀ b : BitVec ew,
      (∀ w, ew ≤ w → s.executePort (b.signExtend w) = s.executePort b) ∧
      s.executePort b = s.execute (resolve s.L b.toInt)

/-- R31, R34, R101: whatever a step reads (fetch or source), at whatever address, it sees the write of the step
before, its own instruction's bytes included. -/
def Obligations.EveryReadSeesTheStepBefore : Prop :=
  ∀ (s : State) (e e' : Int), ∃ t, s.execute e = .next t ∧
    (∀ A, t.memRead A =
      if resolve s.L A = (s.present e).destIndex then (s.present e).resultByte else s.memRead A) ∧
    ∀ k, (t.present e').fetchByte k =
      if resolve s.L (e' + k) = (s.present e).destIndex then (s.present e).resultByte
      else s.memRead (e' + k)

/-- R31, R104 (R104 is the spec's decision D18): a run is its entry addresses applied in order to the memory by the
pseudocode of R79; it always ends, with every input that was not the run's still there. -/
def Obligations.RunAppliesEntriesInOrder : Prop :=
  ∀ (es : List Int) (s : State),
    s.runEntries es = .next { s with mem := es.foldl (stepMem s.L) s.mem }

/-- R104: the machine behind the host's interface, stepped once for each entry address it has been given, computes the
run of that list. -/
def Obligations.CoreStepsThroughARun : Prop :=
  ∀ (es : List Int) (s : State),
    Host.Core.run Sys2Proof.core es.length { s with hostEntries := es ++ s.hostEntries } = s.runEntries es
end

