-- ==== Sys2Proof/Laws/State.lean ====
section
/-! SUPPORT. What each update of the state leaves in each field. -/

namespace Sys2Proof.Machine

@[simp] theorem State.reset_config : State.reset.config = Config.canonical := rfl
@[simp] theorem State.reset_mem : State.reset.mem = Memory.ofCells Config.canonical.L Config.seedByte := rfl
@[simp] theorem State.reset_hostEntries : State.reset.hostEntries = [] := rfl
@[simp] theorem State.reset_hostDraws : State.reset.hostDraws = 0 := rfl
@[simp] theorem State.reset_L : State.reset.L = 1024 := rfl

@[simp] theorem State.setCell_config (s : State) (i : Nat) (v : Byte) : (s.setCell i v).config = s.config := rfl
@[simp] theorem State.setCell_mem (s : State) (i : Nat) (v : Byte) : (s.setCell i v).mem = s.mem.write i v := rfl
@[simp] theorem State.setCell_hostEntries (s : State) (i : Nat) (v : Byte) :
    (s.setCell i v).hostEntries = s.hostEntries := rfl
@[simp] theorem State.setCell_hostDraws (s : State) (i : Nat) (v : Byte) :
    (s.setCell i v).hostDraws = s.hostDraws := rfl
@[simp] theorem State.setCell_L (s : State) (i : Nat) (v : Byte) : (s.setCell i v).L = s.L := rfl
@[simp] theorem State.setCell_entry (s : State) (i : Nat) (v : Byte) : (s.setCell i v).entry = s.entry := rfl

@[simp] theorem State.present_config (s : State) (e : Int) : (s.present e).config = s.config := rfl
@[simp] theorem State.present_mem (s : State) (e : Int) : (s.present e).mem = s.mem := rfl
@[simp] theorem State.present_hostEntries (s : State) (e : Int) :
    (s.present e).hostEntries = e :: s.hostEntries := rfl
@[simp] theorem State.present_hostDraws (s : State) (e : Int) : (s.present e).hostDraws = s.hostDraws := rfl
@[simp] theorem State.present_L (s : State) (e : Int) : (s.present e).L = s.L := rfl
@[simp] theorem State.present_entry (s : State) (e : Int) : (s.present e).entry = e := rfl
@[simp] theorem State.present_cell (s : State) (e : Int) (i : Nat) : (s.present e).cell i = s.cell i := rfl

@[simp] theorem State.dropEntry_present (s : State) (e : Int) : (s.present e).dropEntry = s := rfl

@[simp] theorem State.dropEntry_config (s : State) : s.dropEntry.config = s.config := by
  unfold State.dropEntry
  split <;> rfl

@[simp] theorem State.dropEntry_mem (s : State) : s.dropEntry.mem = s.mem := by
  unfold State.dropEntry
  split <;> rfl

@[simp] theorem State.dropEntry_L (s : State) : s.dropEntry.L = s.L := by
  simp [State.L]

@[simp] theorem State.dropEntry_cell (s : State) (i : Nat) : s.dropEntry.cell i = s.cell i := by
  simp [State.cell]

/-- Every machine has at least one cell (R50). -/
theorem State.L_pos (s : State) : 0 < s.L := Nat.succ_pos _

end Sys2Proof.Machine
end

