-- ==== Sys2Proof/Laws/Memory.lean ====
section
/-! SUPPORT. The memory operations: what a read gives after each, and that each keeps the canonical form and the
bound on the listed indices. -/

namespace Sys2Proof.Machine

theorem Memory.read_unlist (m : Memory) (i j : Nat) :
    (m.unlist i).read j = if j = i then Memory.unlisted j else m.read j := by
  induction m with
  | nil => simp [Memory.unlist, Memory.read]
  | cons c m ih => grind [Memory.unlist, Memory.read]

theorem Memory.read_list (m : Memory) (i : Nat) (v : Byte) (j : Nat) (hi : ∀ c ∈ m, c.1 ≠ i) :
    (m.list i v).read j = if j = i then v else m.read j := by
  induction m with
  | nil => grind [Memory.list, Memory.read]
  | cons c m ih => grind [Memory.list, Memory.read]

theorem Memory.mem_unlist (m : Memory) (i : Nat) (c : Host.Cell) :
    c ∈ m.unlist i ↔ c ∈ m ∧ c.1 ≠ i := by
  induction m with
  | nil => simp [Memory.unlist]
  | cons d m ih => grind [Memory.unlist]

theorem Memory.mem_list (m : Memory) (i : Nat) (v : Byte) (c : Host.Cell) :
    c ∈ m.list i v ↔ c = (i, v) ∨ c ∈ m := by
  induction m with
  | nil => simp [Memory.list]
  | cons d m ih =>
    by_cases hd : i < d.1 <;> simp [Memory.list, hd, ih]
    tauto

/-- A read after a write gives the byte written at that cell and the old byte everywhere else (R77, R78). -/
theorem Memory.read_write (m : Memory) (i : Nat) (v : Byte) (j : Nat) :
    (m.write i v).read j = if j = i then v else m.read j := by
  unfold Memory.write
  by_cases hv : v = Memory.unlisted i
  · by_cases hj : j = i <;> simp [hv, Memory.read_unlist, hj]
  · rw [if_neg hv, Memory.read_list _ _ _ _ fun c hc => ((Memory.mem_unlist m i c).1 hc).2]
    by_cases hj : j = i <;> simp [hj, Memory.read_unlist]

/-- Where a write may list a cell: among the cells listed before, and the cell written. -/
theorem Memory.mem_write (m : Memory) (i : Nat) (v : Byte) (c : Host.Cell) (h : c ∈ m.write i v) :
    c = (i, v) ∨ c ∈ m := by
  unfold Memory.write at h
  split at h
  · exact .inr ((Memory.mem_unlist m i c).1 h).1
  · exact ((Memory.mem_list _ _ _ _).1 h).imp_right fun h => ((Memory.mem_unlist m i c).1 h).1

theorem Memory.wfFrom_mono (m : Memory) (lo lo' : Nat) (h : m.wfFrom lo = true) (hlo : lo' ≤ lo) :
    m.wfFrom lo' = true := by
  cases m with
  | nil => rfl
  | cons c m => simp only [Memory.wfFrom, Bool.and_eq_true, decide_eq_true_eq] at h ⊢; exact ⟨⟨by omega, h.1.2⟩, h.2⟩

theorem Memory.wfFrom_unlist (m : Memory) (lo i : Nat) (h : m.wfFrom lo = true) :
    (m.unlist i).wfFrom lo = true := by
  induction m generalizing lo with
  | nil => rfl
  | cons c m ih =>
    simp only [Memory.wfFrom, Bool.and_eq_true, decide_eq_true_eq] at h
    by_cases hc : c.1 = i
    · simp only [Memory.unlist, hc, if_true]
      exact Memory.wfFrom_mono _ (c.1 + 1) _ (ih _ h.2) (by omega)
    · simp only [Memory.unlist, hc, if_false, Memory.wfFrom, Bool.and_eq_true, decide_eq_true_eq]
      exact ⟨h.1, ih _ h.2⟩

theorem Memory.wfFrom_list (m : Memory) (lo i : Nat) (v : Byte) (h : m.wfFrom lo = true) (hlo : lo ≤ i)
    (hi : ∀ c ∈ m, c.1 ≠ i) (hv : v ≠ Memory.unlisted i) : (m.list i v).wfFrom lo = true := by
  induction m generalizing lo with
  | nil => simp [Memory.list, Memory.wfFrom, hlo, hv]
  | cons c m ih =>
    simp only [Memory.wfFrom, Bool.and_eq_true, decide_eq_true_eq] at h
    have hc : c.1 ≠ i := hi c (by simp)
    by_cases hlt : i < c.1
    · simp only [Memory.list, hlt, if_true, Memory.wfFrom, Bool.and_eq_true, decide_eq_true_eq]
      exact ⟨⟨hlo, hv⟩, ⟨by omega, h.1.2⟩, h.2⟩
    · simp only [Memory.list, hlt, if_false, Memory.wfFrom, Bool.and_eq_true, decide_eq_true_eq]
      exact ⟨h.1, ih _ h.2 (by omega) fun d hd => hi d (by simp [hd])⟩

/-- A write keeps the canonical form. -/
theorem Memory.wf_write (m : Memory) (i : Nat) (v : Byte) (h : m.wf = true) : (m.write i v).wf = true := by
  unfold Memory.write
  split
  · exact Memory.wfFrom_unlist _ _ _ h
  · rename_i hv
    exact Memory.wfFrom_list _ _ _ _ (Memory.wfFrom_unlist _ _ _ h) (Nat.zero_le _)
      (fun c hc => ((Memory.mem_unlist m i c).1 hc).2) hv

theorem Memory.wfFrom_ofCellsFrom (f : Nat → Byte) (n lo : Nat) :
    (Memory.ofCellsFrom f lo n).wfFrom lo = true := by
  induction n generalizing lo with
  | zero => rfl
  | succ n ih =>
    by_cases h : f lo = Memory.unlisted lo
    · simpa [Memory.ofCellsFrom, h] using Memory.wfFrom_mono _ _ lo (ih (lo + 1)) (by omega)
    · simpa [Memory.ofCellsFrom, h, Memory.wfFrom] using ih (lo + 1)

/-- A seeded memory is in canonical form. -/
theorem Memory.wf_ofCells (n : Nat) (f : Nat → Byte) : (Memory.ofCells n f).wf = true :=
  Memory.wfFrom_ofCellsFrom f n 0

/-- A cell below every listed cell reads as an unlisted one. -/
theorem Memory.read_of_wfFrom (m : Memory) (lo i : Nat) (h : m.wfFrom lo = true) (hi : i < lo) :
    m.read i = Memory.unlisted i := by
  induction m generalizing lo with
  | nil => rfl
  | cons c m ih =>
    simp only [Memory.wfFrom, Bool.and_eq_true, decide_eq_true_eq] at h
    simp [Memory.read, show c.1 ≠ i by omega, ih _ h.2 (by omega)]

theorem Memory.read_ofCellsFrom (f : Nat → Byte) (n lo i : Nat) :
    (Memory.ofCellsFrom f lo n).read i = if lo ≤ i ∧ i < lo + n then f i else Memory.unlisted i := by
  induction n generalizing lo with
  | zero => grind [Memory.ofCellsFrom, Memory.read]
  | succ n ih => grind [Memory.ofCellsFrom, Memory.read]

/-- A seeded memory holds the byte given for each of its cells. -/
theorem Memory.read_ofCells (n : Nat) (f : Nat → Byte) (i : Nat) :
    (Memory.ofCells n f).read i = if i < n then f i else Memory.unlisted i := by
  simp [Memory.ofCells, Memory.read_ofCellsFrom]

theorem Memory.lt_of_mem_ofCellsFrom (f : Nat → Byte) (n lo : Nat) (c : Host.Cell)
    (h : c ∈ Memory.ofCellsFrom f lo n) : c.1 < lo + n := by
  induction n generalizing lo with
  | zero => simp [Memory.ofCellsFrom] at h
  | succ n ih => grind [Memory.ofCellsFrom]

/-- A seeded memory lists only cells of the buffer. -/
theorem Memory.lt_of_mem_ofCells (n : Nat) (f : Nat → Byte) (c : Host.Cell) (h : c ∈ Memory.ofCells n f) :
    c.1 < n := by
  simpa using Memory.lt_of_mem_ofCellsFrom f n 0 c h

/-- The reset memory is in canonical form, whatever it is seeded with. -/
theorem Memory.wf_reset : State.reset.mem.wf = true := by
  rw [State.reset_mem]
  exact Memory.wf_ofCells _ _

/-- Every cell of the reset buffer holds its seeded byte (R20). -/
theorem State.cell_reset (i : Nat) (h : i < 1024) : State.reset.cell i = Config.seedByte i := by
  rw [State.cell, State.reset_mem, Memory.read_ofCells]
  exact if_pos h

/-- What writing one cell leaves in every cell. -/
theorem State.cell_setCell (s : State) (i : Nat) (v : Byte) (j : Nat) :
    (s.setCell i v).cell j = if j = i then v else s.cell j :=
  Memory.read_write s.mem i v j

/-- Every byte of `memWriteList` goes through `memWrite`, so the canonical form is kept. -/
theorem State.wf_memWriteList (vs : List Byte) (A : Int) (s : State) (h : s.mem.wf = true) :
    (s.memWriteList A vs).mem.wf = true := by
  induction vs generalizing A s with
  | nil => exact h
  | cons v vs ih => exact ih _ _ (Memory.wf_write _ _ _ h)

end Sys2Proof.Machine
end

