-- ==== Sys2Proof/Laws/PerInstr.lean ====
section
/-! SUPPORT. Statements about every instruction as syntax, one lemma per constructor. -/

namespace Sys2Proof.Laws.FourBytes

/-- Every instruction is well formed and four bytes long (R35, R41). -/
def Statement (i : Instr) : Prop := i.wellFormed = true ∧ (encode i).length = 4

theorem ssub (m1 m2 md : AddrMode) (fn : BitVec 5) (i1 i2 i3 : Byte) : Statement (.ssub m1 m2 md fn i1 i2 i3) :=
  ⟨rfl, rfl⟩

end Sys2Proof.Laws.FourBytes
end

