-- ==== Sys2Proof/Laws/Resolver.lean ====
section
/-! SUPPORT. The resolver as integer arithmetic, once, for every later proof. -/

namespace Sys2Proof.Machine

/-- The resolver's value as an integer: the floored modulo (R46). -/
theorem resolve_cast (L : Nat) (A : Int) (hL : 0 < L) : (resolve L A : Int) = A % (L : Int) :=
  Int.toNat_of_nonneg (Int.emod_nonneg A (by omega))

/-- A resolved address is an index of the buffer (R19, R46). -/
theorem resolve_lt (L : Nat) (A : Int) (hL : 0 < L) : resolve L A < L := by
  have h1 := resolve_cast L A hL
  have h2 := Int.emod_lt_of_pos A (b := (L : Int)) (by omega)
  omega

/-- Two addresses name one cell exactly when they are congruent modulo the length (R23). -/
theorem resolve_eq_iff (L : Nat) (A B : Int) (hL : 0 < L) :
    resolve L A = resolve L B ↔ A % (L : Int) = B % (L : Int) := by
  have h1 := resolve_cast L A hL
  have h2 := resolve_cast L B hL
  omega

/-- Every resolution of a machine's own length lands in its buffer (R19). -/
theorem State.resolve_lt (s : State) (A : Int) : resolve s.L A < s.L := Machine.resolve_lt s.L A s.L_pos

end Sys2Proof.Machine
end

