-- ==== Sys2Proof/Laws/Step.lean ====
section
/-! SUPPORT. Everything the instruction, a step and a host move can do, each said once. -/

namespace Sys2Proof.Machine

/-- All that `SSUB` does: it answers a next state, in which one cell is set. -/
theorem execSsub_next (m1 m2 md : AddrMode) (fn : BitVec 5) (i1 i2 i3 : Byte) (s : State) :
    execSsub m1 m2 md fn i1 i2 i3 s =
      .next (s.setCell (s.slotIndex md i3) (ssub8 (s.sourceValue m1 i1) (s.sourceValue m2 i2))) := rfl

/-- All that a step does: it answers a next state, in which one cell is set and one entry address is used up. -/
theorem step_next (s : State) : step s = .next (s.setCell s.destIndex s.resultByte).dropEntry := rfl

/-- Inversion of `step_next`. -/
theorem step_eq_next (s t : State) (h : step s = .next t) :
    t = (s.setCell s.destIndex s.resultByte).dropEntry := by
  rw [step_next] at h
  exact (Host.Outcome.next.inj h).symm

/-- All that an issued entry address does: one cell is set, and the host's other entry addresses stand. -/
theorem State.execute_next (s : State) (e : Int) :
    s.execute e = .next (s.setCell (s.present e).destIndex (s.present e).resultByte) := rfl

/-- The cell a step writes is a cell of the buffer (R19). -/
theorem State.destIndex_lt (s : State) : s.destIndex < s.L := s.resolve_lt _

/-- Placing a listing keeps the canonical form of the memory. -/
theorem wf_asmPlace (items : List AsmItem) (A : Int) (s : State) (h : s.mem.wf = true) :
    (asmPlace items A s).mem.wf = true := by
  induction items generalizing A s with
  | nil => exact h
  | cons item items ih =>
    cases item with
    | stmt t => exact ih _ _ (State.wf_memWriteList _ _ _ h)
    | byte v => exact ih _ _ (Memory.wf_write _ _ _ h)
    | org n => exact ih _ _ h

end Sys2Proof.Machine
end

