-- ==== Sys2Proof/Tests/Slice0.lean ====
section
/-! SUPPORT. Tests: expected values are those of 95_test_vectors.md or of the rule named, none is the model's own
answer; and, for every statement with hypotheses, a concrete case that meets them. -/

namespace Sys2Proof.Machine.Tests

/-- A machine of `n + 1` cells holding `bs` from cell 0 up, with the entry addresses `es`. -/
def machine (n : Nat) (bs : List Byte) (es : List Int) : State :=
  ({ config := ⟨n⟩, mem := [], hostEntries := es, hostDraws := 0 } : State).memWriteList 0 bs

/-- The state after one step. -/
def after (s : State) : State :=
  match step s with
  | .next t => t
  | .fault _ => s
  | .refused _ => s

/-- The memory of the eight addressing forms, 95 section 3.5, with opcode `op`. -/
def forms (op : Byte) (e : Int) : State :=
  machine 15 [0, 0, 0, 0, 0x50, 0x10, 0xEE, 0, op, 0xFC, 0xFD, 0xFE, 0x0A, 0x03, 0xEE, 0] [e]

/-! ### The checks refuse what is out of form -/

theorem test_no_machine_of_no_cells : Config.ofLength? 0 = none := by decide
theorem test_unsorted_memory_refused : Memory.wf [(5, 1), (3, 2)] = false := by decide
theorem test_repeated_cell_refused : Memory.wf [(3, 1), (3, 2)] = false := by decide
theorem test_listed_unlisted_byte_refused : Memory.wf [(3, 0)] = false := by decide
theorem test_cell_outside_buffer_refused :
    ¬ State.Inv { config := ⟨7⟩, mem := [(8, 1)], hostEntries := [], hostDraws := 0 } := by decide
theorem test_displacement_out_of_field_refused :
    AsmStmt.wellFormed ⟨0, .rel 128, .abs 0, .abs 0⟩ = false ∧
    AsmStmt.wellFormed ⟨0, .rel 0, .abs (-129), .abs 0⟩ = false ∧
    AsmStmt.wellFormed ⟨0, .rel 0, .abs 0, .abs 128⟩ = false := by decide
theorem test_fn_out_of_field_refused : AsmStmt.wellFormed ⟨32, .rel 0, .abs 0, .abs 0⟩ = false := by decide
theorem test_short_list_refused_by_name : decodeBytes [0xE0, 0x0C, 0x0F] = .error .truncated := by decide

/-! ### Decoding: words written out from the format table of R35 -/

/-- 95 section 3.2, first row: `1 1 1`, `fn = 0`. -/
theorem test_decode_all_absolute :
    decodeBytes [0b11100000, 0x0C, 0x0F, 0x0E] = .ok (.ssub .absolute .absolute .absolute 0 0x0C 0x0F 0x0E, []) := by
  decide
/-- Mode bits 0 1 0: only source-2 absolute. -/
theorem test_decode_source2_absolute :
    decodeBytes [0b01000000, 0xFE, 0xFC, 0x05] = .ok (.ssub .relative .absolute .relative 0 0xFE 0xFC 0x05, []) := by
  decide
/-- 95 section 3.2: `I0 = 0x22` is `0 0 1`, `fn = 2`; the rest of the list is handed back. -/
theorem test_decode_destination_absolute :
    decodeBytes [0b00100010, 0x90, 0x10, 0x40, 0x77] =
      .ok (.ssub .relative .relative .absolute 2 0x90 0x10 0x40, [0x77]) := by decide
/-- `I0 = 0x9F` is `1 0 0`, `fn = 31`. -/
theorem test_decode_source1_absolute :
    decode 0b10011111 1 2 3 = .ssub .absolute .relative .relative 31 1 2 3 := by decide
/-- R40: `I0` is bits 31:24 of the word view. -/
theorem test_decode_table_word :
    decodeTableWord 32 0xA0807FFF = some (.ssub .absolute .relative .absolute 0 0x80 0x7F 0xFF) := by decide
theorem test_encode_opcode : encode (.ssub .relative .absolute .absolute 27 1 2 3) = [0x7B, 1, 2, 3] := by decide
/-- 95 section 3.2, displacement unpacking. -/
theorem test_sext8 :
    sext8 0x7F = 127 ∧ sext8 0x80 = -128 ∧ sext8 0x90 = -112 ∧ sext8 0xE0 = -32 ∧ sext8 0xFF = -1 := by decide
/-- R43's example: `ssub @12, @15, @14` assembles to `E0 0C 0F 0E`. -/
theorem test_assemble :
    AsmStmt.bytes ⟨0, .abs 12, .abs 15, .abs 14⟩ = [0xE0, 0x0C, 0x0F, 0x0E] ∧
    AsmStmt.text ⟨0, .abs 12, .abs 15, .abs 14⟩ = "ssub @12, @15, @14" := by decide

/-! ### Operations -/

/-- 95 section 3.1. -/
theorem test_resolve :
    resolve 8 (-3) = 5 ∧ resolve 8 (-8) = 0 ∧ resolve 8 (-9) = 7 ∧ resolve 1000 (-2147483649) = 351 ∧
    resolve 1024 2147483773 = 125 ∧ resolve 1 (-5) = 0 := by decide
/-- 43_alu.md section 4: the unsigned decision, saturation, a result with bit 7 set. -/
theorem test_ssub8 :
    ssub8 0x80 0x7F = 0x01 ∧ ssub8 0x7F 0x80 = 0x00 ∧ ssub8 0xFF 0x01 = 0xFE ∧ ssub8 0x90 0x10 = 0x80 := by decide
/-- 95 section 3.3: the same byte `0x90` at entry 2 of 8 cells, relative and absolute; `0x80` absolute in 1024. -/
theorem test_slot_index :
    (machine 7 [] [2]).slotIndex .relative 0x90 = 2 ∧ (machine 7 [] [2]).slotIndex .absolute 0x90 = 0 ∧
    (machine 1023 [] [7]).slotIndex .absolute 0x80 = 896 := by decide

/-! ### The instruction and the step -/

/-- P2 step 3: the instruction overwrites its own opcode byte, which is also its second source. -/
theorem test_step_own_opcode :
    (after (machine 7 [0x05, 0x11, 0x80, 0x90, 0x10, 0x40, 0xFE, 0xFC] [2])).mem =
      (machine 7 [0x05, 0x11, 0x00, 0x90, 0x10, 0x40, 0xFE, 0xFC] []).mem := by decide
/-- P5 step 1 as a listing: wrapped instruction, exact sum past 31 bits, absolute `0x80` is cell 896. -/
theorem test_step_canonical_length :
    (after (AsmProgram.load
      ⟨[.org 1022, .stmt ⟨0, .abs (-128), .rel 127, .abs (-1)⟩, .org 125, .byte 0x64, .org 128, .byte 0x01,
        .org 896, .byte 0xC8], [2147483646]⟩ Config.canonical)).mem =
      [(0, 0x7F), (1, 0xFF), (125, 0x64), (128, 0x01), (896, 0xC8), (1022, 0xA0), (1023, 0x64)] := by decide +kernel
/-- A word placed where the host has chosen no entry address is the first instruction run: `clr @15` (`20 00 00 0F`),
over a cell that held `0x55` (P1 step 1). -/
theorem test_placed_word_runs_first :
    ((machine 15 (List.replicate 16 0x55) []).withFetchWord 32 0x2000000F).fetchInstr = .clr .absolute 0x0F ∧
    (after ((machine 15 (List.replicate 16 0x55) []).withFetchWord 32 0x2000000F)).cell 15 = 0 := by decide
/-- From reset too, whatever memory is seeded with: the placed word is what the first step fetches, and it runs. -/
theorem test_placed_word_runs_at_reset :
    (State.reset.withFetchWord 32 0x2000000F).fetchInstr = .clr .absolute 0x0F ∧
    ∃ t, step (State.reset.withFetchWord 32 0x2000000F) = .next t := by
  refine ⟨?_, _, rfl⟩
  have h : State.reset.withFetchWord 32 0x2000000F =
      ((((State.reset.present 0).setCell 0 0x20).setCell 1 0).setCell 2 0).setCell 3 0x0F := rfl
  rw [h]
  simp only [State.fetchInstr, State.fetchByte, State.memRead, State.cell_setCell, State.setCell_L, State.present_L,
    State.setCell_entry, State.present_entry]
  decide

/-! ### Witnesses: what the statements assume can be met -/

theorem witness_resolver_clauses :
    ((8 : Int) ∣ 5 - (-3)) ∧ resolve 8 (-3) = 5 ∧ ¬ (8 : Int) ∣ (-3) ∧ (8 : Int) ∣ (-8) ∧ resolve 8 0 = 0 ∧
    resolve 8 7 = 7 ∧ resolve 8 8 = 0 := by decide
theorem witness_loop_ends : resolveLoop 1 1 8 (-3) = some 5 ∧ resolveLoop 1 1 8 8 = some 0 := by decide
/-- 8 cells, entry 7: the highest raw address 134 by source byte `0x7F`, the lowest -128 absolute, one in range. -/
theorem witness_loop_turns :
    0 ≤ (machine 7 [] [7]).entry ∧ (machine 7 [] [7]).entry < (machine 7 [] [7]).L ∧
    rawAddress .relative 7 (sext8 0x7F) = 134 ∧ resolveLoop 0 16 8 134 = some 6 ∧
    rawAddress .absolute 7 (sext8 0x80) = -128 ∧ resolveLoop 16 0 8 (-128) = some 0 ∧
    rawAddress .relative 7 (sext8 0) = 7 ∧ resolveLoop 0 0 8 7 = some 7 := by decide
theorem witness_power_of_two : ((BitVec.ofInt 32 (-1)).setWidth 10).toNat = 1023 := by decide
theorem witness_well_formed_instruction : Instr.nop.wellFormed = true := by decide
theorem witness_displacement_boundary : (0x7F : Byte).toNat ≤ 127 ∧ 127 < (0x80 : Byte).toNat := by decide
theorem witness_same_top_bits : (0xE0 : Byte).toNat / 32 = (0xFF : Byte).toNat / 32 := by decide
theorem witness_assembler_boundary : AsmStmt.wellFormed ⟨31, .rel (-128), .abs 127, .abs (-128)⟩ = true := by decide
theorem witness_congruence :
    (((machine 7 [] []).L : Nat) : Int) ∣ 13 - (-3) ∧ ¬ (((machine 7 [] []).L : Nat) : Int) ∣ 4 - (-3) := by decide
theorem witness_two_states_one_memory :
    (machine 7 [1, 2] []).Inv ∧ (after (machine 7 [1, 2] [3])).Inv ∧
    ∀ i, i < 8 → (machine 7 [1, 2] []).cell i = (after (machine 7 [1, 2] [3])).cell i := by decide
/-- 8 cells: an entry at `L - 2`, and machines of 3, 2 and 1 cells. -/
theorem witness_fetch_wraps :
    (machine 7 [] [-2]).fetchIndex 0 = (machine 7 [] [-2]).L - 2 ∧ (machine 1 [] [0]).fetchIndex 0 = 2 - 2 ∧
    (machine 2 [] []).L = 3 ∧ (machine 1 [] []).L = 2 ∧ (machine 0 [] []).L = 1 := by decide
/-- 256 cells meet both bounds on the length; cell 128 of 257 is out of absolute reach, 127 and 129 are not. -/
theorem witness_reach :
    (machine 255 [] []).L = 256 ∧ (machine 256 [] [0]).slotIndex .absolute 0x7F = 127 ∧
    (machine 256 [] [0]).slotIndex .absolute 0x80 = 129 := by decide
theorem witness_subtraction_cases :
    (0x7F : Byte).toNat < (0x80 : Byte).toNat ∧ (0x80 : Byte).toNat ≤ (0x80 : Byte).toNat ∧
    0 < ssub8 0x80 0x7F := by decide
/-- V-F0 and V-F4: opcode bit 7 is 0, and is 1. -/
theorem witness_both_modes_of_source1 :
    ((forms 0x00 8).fetchByte 0).getLsbD 7 = false ∧ ((forms 0x80 8).fetchByte 0).getLsbD 7 = true ∧
    (forms 0x00 8).sourceIndex1 = 4 ∧ (forms 0x80 8).sourceIndex1 = 12 := by decide
theorem witness_bytes_at_entry :
    decodeBytes [(forms 0xFF 24).cell (resolve 16 (24 + 0)), (forms 0xFF 24).cell (resolve 16 (24 + 1)),
      (forms 0xFF 24).cell (resolve 16 (24 + 2)), (forms 0xFF 24).cell (resolve 16 (24 + 3))] =
      .ok (.ssub .absolute .absolute .absolute 31 0xFC 0xFD 0xFE, []) := by decide
theorem witness_one_byte_differs :
    (forms 0 8).destIndex = 6 ∧ (after (forms 0 8)).cell 6 ≠ (forms 0 8).cell 6 := by decide
/-- Two memories that differ in cell 0 alone, which V-F0 does not read. -/
theorem witness_six_cells :
    (∀ k, k < 4 → (forms 0 8).cell ((forms 0 8).fetchIndex k) =
      ((forms 0 8).setCell 0 9).cell ((forms 0 8).fetchIndex k)) ∧
    (forms 0 8).cell 4 = ((forms 0 8).setCell 0 9).cell 4 ∧ (forms 0 8).sourceIndex1 = 4 ∧
    (forms 0 8).cell 5 = ((forms 0 8).setCell 0 9).cell 5 ∧ (forms 0 8).sourceIndex2 = 5 ∧
    (after (forms 0 8)).cell 0 ≠ (after ((forms 0 8).setCell 0 9)).cell 0 := by decide
/-- V-A2, V-A1, V-A5 (destination is source-2), P4 (destination and source-1 are the opcode byte, not zero),
V-A4 (source-2 is a displacement byte), and one cell. -/
theorem witness_aliasing :
    (machine 7 [0, 4, 4, 5, 0x30, 0x10] [0]).sourceIndex1 = (machine 7 [0, 4, 4, 5, 0x30, 0x10] [0]).sourceIndex2 ∧
    (machine 7 [0, 4, 5, 4, 0x30, 0x10] [0]).destIndex = (machine 7 [0, 4, 5, 4, 0x30, 0x10] [0]).sourceIndex1 ∧
    (machine 7 [0, 2, 0xFE, 6, 0x30, 0x10, 0xAA, 3] [0]).destIndex =
      (machine 7 [0, 2, 0xFE, 6, 0x30, 0x10, 0xAA, 3] [0]).sourceIndex2 ∧
    (machine 15 [0x40, 0, 8, 0, 0, 0, 0, 0, 0x20] [0]).destIndex = 0 ∧
    (machine 15 [0x40, 0, 8, 0, 0, 0, 0, 0, 0x20] [0]).sourceIndex1 = 0 ∧
    (machine 15 [0x40, 0, 8, 0, 0, 0, 0, 0, 0x20] [0]).fetchIndex 0 = 0 ∧
    (machine 7 [0, 3, 1, 6, 0x30, 0x10, 0xAA] [0]).sourceIndex2 =
      (machine 7 [0, 3, 1, 6, 0x30, 0x10, 0xAA] [0]).fetchIndex 1 ∧
    (after (machine 0 [0x7F] [12345])).cell 0 = 0 := by decide
/-- V-N1 for the pattern, V-F0 for a step that does change memory. -/
theorem witness_unchanged_memory :
    (machine 7 [0, 5, 0, 5, 0x11, 0x77, 0x33, 0x44] [0]).Inv ∧
    (machine 7 [0, 5, 0, 5, 0x11, 0x77, 0x33, 0x44] [0]).fetchByte 0 = 0 ∧
    (machine 7 [0, 5, 0, 5, 0x11, 0x77, 0x33, 0x44] [0]).fetchByte 2 = 0 ∧
    (machine 7 [0, 5, 0, 5, 0x11, 0x77, 0x33, 0x44] [0]).fetchByte 1 =
      (machine 7 [0, 5, 0, 5, 0x11, 0x77, 0x33, 0x44] [0]).fetchByte 3 ∧
    (forms 0 8).Inv ∧ (forms 0 8).resultByte ≠ (forms 0 8).cell (forms 0 8).destIndex := by decide
/-- P1 step 2 for the copy: source-2 is cell 15, which holds 0. -/
theorem witness_nop_and_copy :
    (machine 7 [0, 0, 0, 0, 9] [0]).fetchInstr = .nop ∧
    (machine 15 [0xE0, 0x0C, 0x0F, 0x0E, 0, 0, 0, 0, 0, 0, 0, 0, 0x37] [0]).cell
      ((machine 15 [0xE0, 0x0C, 0x0F, 0x0E, 0, 0, 0, 0, 0, 0, 0, 0, 0x37] [0]).slotIndex .absolute 0x0F) = 0 := by decide
theorem witness_placed_word_smallest_buffer :
    4 ≤ (machine 3 [] []).L ∧
    ((machine 3 [] [-1]).withFetchWord 32 0xE0010203).fetchInstr = .ssub .absolute .absolute .absolute 0 1 2 3 := by
  decide
theorem witness_invariant_step : (forms 0xE0 8).Inv ∧ step (forms 0xE0 8) = .next (after (forms 0xE0 8)) :=
  ⟨by decide, rfl⟩
theorem witness_bounds_on_all_bytes :
    (∀ i, i < (machine 7 [] [3]).L → (machine 7 [] [3]).cell i = 0) ∧
    ∀ i, i < (forms 0 8).L → (forms 0 8).cell i ≤ 0xFE := by decide
theorem witness_length_one_and_canonical :
    Config.ofLength? 1 = some ⟨0⟩ ∧ Config.ofLength? 1024 = some Config.canonical := by decide
/-- A cell of the reset buffer holds its seeded byte, the highest one included. -/
theorem witness_reset_cell : 1023 < 1024 ∧ State.reset.cell 1023 = Config.seedByte 1023 :=
  ⟨by decide, State.cell_reset 1023 (by decide)⟩
theorem witness_seeded_cells :
    (State.start ⟨7⟩ (fun i => BitVec.ofNat 8 (3 * i)) []).cell 7 = 21 ∧
    (State.start ⟨7⟩ (fun i => BitVec.ofNat 8 (3 * i)) []).mem.wf = true := by decide
theorem witness_port_range :
    -2 ^ 7 ≤ (-128 : Int) ∧ (127 : Int) < 2 ^ 7 ∧ (0x80 : BitVec 8).toInt = -128 ∧
    ((0x80 : BitVec 8).signExtend 32).toInt = -128 := by decide
theorem witness_index_width : (∀ i, i < 9 → i < 2 ^ 4) ∧ ¬ ∀ i, i < 9 → i < 2 ^ 3 := by decide
theorem witness_host_inputs :
    (forms 0 8).hostEntries = [8] ∧ (after (forms 0 8)).hostEntries = [] ∧
    (machine 7 [1] [4]).hostEntries = (machine 7 [2] [4]).hostEntries ∧
    (after (after (forms 0 8))).hostDraws = 1 := by
  refine ⟨by decide, by decide, by decide, rfl⟩

end Sys2Proof.Machine.Tests
end

/-! SUPPORT. Proofs of the statements about the scope of the machine (00_scope.md): index width, displacements, the
fixed length, the entry port, and the model's reset state. -/

namespace Sys2Proof.Machine

/-! ### The index width -/

/-- The index width is enough for every index (R5). -/
theorem lt_two_pow_indexWidth {L i : Nat} (hi : i < L) : i < 2 ^ indexWidth L :=
  hi.trans_le (Nat.le_pow_clog (by decide) L)

/-- A width that is enough for every index is no smaller than the index width (R5). -/
theorem indexWidth_le_of_forall_lt {L w : Nat} (h : ∀ i, i < L → i < 2 ^ w) : indexWidth L ≤ w :=
  Nat.clog_le_of_le_pow (le_of_forall_lt h)

/-! ### The displacement byte -/

/-- Two's complement by the sign bit: bit 7 weighs -128 in place of 128, which is 256 less (R9). -/
theorem sext8_eq_sub_signBit (b : Byte) :
    sext8 b = (b.toNat : Int) - 256 * ((b.getLsbD 7).toNat : Int) := by
  rw [sext8, BitVec.toInt_eq_msb_cond, BitVec.msb_eq_getLsbD_last]
  cases b.getLsbD (8 - 1) <;> simp

/-- Two's complement by the unsigned value (R61). -/
theorem sext8_eq_ite (b : Byte) : sext8 b = if b.toNat ≤ 127 then (b.toNat : Int) else (b.toNat : Int) - 256 := by
  rw [sext8, BitVec.toInt_eq_toNat_cond]
  split <;> split <;> omega

/-- The range of a displacement (R39). -/
theorem sext8_mem_range (b : Byte) : -128 ≤ sext8 b ∧ sext8 b ≤ 127 := by
  have hb : b.toNat < 256 := b.isLt
  rw [sext8_eq_ite]
  split <;> omega

/-- Absolute mode resolves the displacement from the start of the buffer (R64). -/
theorem State.slotIndex_absolute (s : State) (b : Byte) : s.slotIndex .absolute b = resolve s.L (sext8 b) := rfl

/-- Relative mode resolves the displacement from the entry address (R65). -/
theorem State.slotIndex_relative (s : State) (b : Byte) :
    s.slotIndex .relative b = resolve s.L (s.entry + sext8 b) := rfl

/-! ### Runs -/

/-- A run of no entry address is the state itself (R104). -/
@[simp] theorem State.runEntries_nil (s : State) : s.runEntries [] = .next s := rfl

/-- A run's first entry address sets one cell, and the run goes on from there (R104). -/
theorem State.runEntries_cons (s : State) (e : Int) (es : List Int) :
    s.runEntries (e :: es) =
      (s.setCell (s.present e).destIndex (s.present e).resultByte).runEntries es := rfl

/-- A run always ends with a next state, and that has the configuration of the first (R15). -/
theorem State.runEntries_next_config (es : List Int) (s : State) :
    ∃ t, s.runEntries es = .next t ∧ t.config = s.config := by
  induction es generalizing s with
  | nil => exact ⟨s, rfl, rfl⟩
  | cons e es ih =>
    rw [State.runEntries_cons]
    exact ih (s.setCell _ _)

/-- The length is the configuration's (R4). -/
theorem State.L_eq_of_config_eq {s t : State} (h : t.config = s.config) : t.L = s.L :=
  congrArg Config.L h

/-! ### Reducing an entry address before its use -/

/-- Addresses that name one cell still do so when both are moved by the same offset (R69). -/
theorem resolve_add_congr {L : Nat} {A B : Int} (hL : 0 < L) (h : resolve L A = resolve L B) (d : Int) :
    resolve L (A + d) = resolve L (B + d) :=
  (resolve_eq_iff L _ _ hL).2 (Int.ModEq.add_right d ((resolve_eq_iff L A B hL).1 h))

/-- Resolving a resolved address changes nothing (R51). -/
theorem resolve_resolve (L : Nat) (A : Int) (hL : 0 < L) : resolve L (resolve L A) = resolve L A := by
  rw [resolve_eq_iff L _ _ hL, resolve_cast L A hL, Int.emod_emod]

section EntriesOfOneCell

variable {s : State} {e e' : Int} (h : resolve s.L e = resolve s.L e')
include h

/-- The fetch depends on the entry address only through the cell it names (R69). -/
theorem State.present_fetchByte_congr (k : Nat) : (s.present e).fetchByte k = (s.present e').fetchByte k :=
  congrArg s.cell (resolve_add_congr s.L_pos h k)

/-- An operand slot depends on the entry address only through the cell it names (R69). -/
theorem State.present_slotIndex_congr (m : AddrMode) (b : Byte) :
    (s.present e).slotIndex m b = (s.present e').slotIndex m b := by
  cases m with
  | absolute => rfl
  | relative => exact resolve_add_congr s.L_pos h (sext8 b)

/-- A step depends on the entry address only through the cell it names (R69). -/
theorem State.execute_congr : s.execute e = s.execute e' := by
  simp only [State.execute_next, State.destIndex, State.resultByte, State.sourceIndex1, State.sourceIndex2,
    State.present_cell, State.present_fetchByte_congr h, State.present_slotIndex_congr h]

end EntriesOfOneCell

/-- The resolver may reduce the entry address before the step (R69). -/
theorem State.execute_resolve (s : State) (e : Int) : s.execute (resolve s.L e) = s.execute e :=
  State.execute_congr (resolve_resolve s.L e s.L_pos)

/-! ### A finite entry port -/

/-- A port presents the two's complement value of its bits (R6). -/
theorem State.executePort_eq {ew : Nat} (s : State) (b : BitVec ew) : s.executePort b = s.execute b.toInt := rfl

/-- A port of `ew + 1` bits presents every integer of its range (R6). -/
theorem State.executePort_ofInt (s : State) {ew : Nat} {e : Int} (hlo : -2 ^ ew ≤ e) (hhi : e < 2 ^ ew) :
    s.executePort (BitVec.ofInt (ew + 1) e) = s.execute e := by
  rw [State.executePort_eq, BitVec.toInt_ofInt_eq_self (Nat.succ_pos ew) hlo hhi]

/-- A wider port presents the same integer for the sign-extended bits (R6). -/
theorem State.executePort_signExtend (s : State) {ew w : Nat} (b : BitVec ew) (hw : ew ≤ w) :
    s.executePort (b.signExtend w) = s.executePort b := by
  rw [State.executePort_eq, State.executePort_eq, BitVec.toInt_signExtend_of_le hw]

/-! ### The statements -/

/-- Settles O8: the index width is a ceiling logarithm, so its power of two is the least at or above the length. -/
theorem indexWidthIsExact : Obligations.IndexWidthIsExact := by
  unfold Obligations.IndexWidthIsExact
  exact ⟨fun L A hL => lt_two_pow_indexWidth (resolve_lt L A hL), fun _ _ h => indexWidth_le_of_forall_lt h,
    Nat.clog_one_right 2⟩

/-- Settles O12, from the two forms of two's complement and the equation of each addressing mode. -/
theorem displacementIsTwosComplement : Obligations.DisplacementIsTwosComplement := by
  unfold Obligations.DisplacementIsTwosComplement
  intro b
  obtain ⟨hlo, hhi⟩ := sext8_mem_range b
  refine ⟨sext8_eq_sub_signBit b, hlo, hhi, fun hb => ?_, fun hb => ?_,
    fun s => ⟨s.slotIndex_absolute b, s.slotIndex_relative b⟩⟩
  · rw [sext8_eq_ite, if_pos hb]
  · rw [sext8_eq_ite, if_neg (by omega)]

/-- Settles O39, by induction on the entry addresses of the run. -/
theorem lengthIsFixedForLife : Obligations.LengthIsFixedForLife := by
  unfold Obligations.LengthIsFixedForLife
  intro es s
  obtain ⟨t, hrun, hconfig⟩ := State.runEntries_next_config es s
  exact ⟨t, hrun, hconfig, State.L_eq_of_config_eq hconfig⟩

/-- Settles O43: the reset state is one start-up state, and a seeded cell holds its seed. -/
theorem resetStateOfTheModel : Obligations.ResetStateOfTheModel := by
  unfold Obligations.ResetStateOfTheModel
  exact ⟨State.reset_L, State.cell_reset, State.reset_hostEntries, rfl⟩

/-- Settles O45: a port presents the integer of its bits, and a step depends only on the cell that integer names. -/
theorem finitePortOnlyRestrictsEntries : Obligations.FinitePortOnlyRestrictsEntries := by
  unfold Obligations.FinitePortOnlyRestrictsEntries
  intro ew s
  refine ⟨fun e hlo hhi => ⟨BitVec.ofInt (ew + 1) e, s.executePort_ofInt hlo hhi⟩, fun b => ⟨fun w hw => ?_, ?_⟩⟩
  · exact s.executePort_signExtend b hw
  · exact (s.execute_resolve b.toInt).symm

end Sys2Proof.Machine

/-! SUPPORT. Proofs of the statements about the state (10_state.md): the invariant of the memory, the buffer's bounds,
the start-up states, and the host's entry addresses. -/

namespace Sys2Proof.Machine

/-! ### The invariant -/

/-- A write to a cell of the buffer keeps the invariant (R19). -/
theorem State.Inv.setCell {s : State} (h : s.Inv) {i : Nat} (hi : i < s.L) (v : Byte) : (s.setCell i v).Inv := by
  obtain ⟨hwf, hlt⟩ := h
  refine ⟨Memory.wf_write s.mem i v hwf, fun c hc => ?_⟩
  obtain rfl | hc := Memory.mem_write s.mem i v c hc
  · exact hi
  · exact hlt c hc

/-- The host's inputs are no part of the invariant. -/
theorem State.Inv.dropEntry {s : State} (h : s.Inv) : s.dropEntry.Inv := by
  simpa [State.Inv] using h

/-- A seeded buffer meets the invariant, whatever its seeds (R20). -/
theorem State.Inv.start (c : Config) (f : Nat → Byte) (es : List Int) : (State.start c f es).Inv :=
  ⟨Memory.wf_ofCells c.L f, Memory.lt_of_mem_ofCells c.L f⟩

/-! ### Canonical memories are determined by their cells -/

/-- The canonical form of a nonempty memory, at its head and at its tail. -/
theorem Memory.wfFrom_cons (c : Host.Cell) (m : Memory) (lo : Nat) :
    Memory.wfFrom lo (c :: m) = true ↔ lo ≤ c.1 ∧ c.2 ≠ Memory.unlisted c.1 ∧ m.wfFrom (c.1 + 1) = true := by
  simp [Memory.wfFrom, and_assoc]

@[simp] theorem Memory.read_cons_self (c : Host.Cell) (m : Memory) : Memory.read (c :: m) c.1 = c.2 := if_pos rfl

theorem Memory.read_cons_of_ne {c : Host.Cell} {i : Nat} (m : Memory) (hi : c.1 ≠ i) :
    Memory.read (c :: m) i = m.read i := if_neg hi

/-- A cell the memory does not list reads as an unlisted one. -/
theorem Memory.read_of_forall_ne {m : Memory} {i : Nat} (h : ∀ c ∈ m, c.1 ≠ i) : m.read i = Memory.unlisted i := by
  induction m with
  | nil => rfl
  | cons c m ih =>
    obtain ⟨hc, hm⟩ := List.forall_mem_cons.1 h
    rw [Memory.read_cons_of_ne m hc, ih hm]

/-- The first cell of a canonical memory is listed in every canonical memory with the same bytes, so none of these
begins above it. -/
theorem Memory.le_head_of_read_eq {c : Host.Cell} {m m' : Memory} {lo lo' : Nat}
    (h : Memory.wfFrom lo (c :: m) = true) (h' : m'.wfFrom lo' = true)
    (hread : ∀ i, Memory.read (c :: m) i = m'.read i) : lo' ≤ c.1 := by
  obtain ⟨-, hlisted, -⟩ := (Memory.wfFrom_cons c m lo).1 h
  by_contra hlt
  apply hlisted
  calc c.2 = m'.read c.1 := by rw [← hread, Memory.read_cons_self]
    _ = Memory.unlisted c.1 := Memory.read_of_wfFrom m' lo' c.1 h' (by omega)

/-- Canonical memories with the same bytes have tails with the same bytes: up to the head both tails read as
unlisted, and above it the heads do not matter. -/
theorem Memory.read_tail_eq {c : Host.Cell} {m m' : Memory} (h : m.wfFrom (c.1 + 1) = true)
    (h' : m'.wfFrom (c.1 + 1) = true) (hread : ∀ i, Memory.read (c :: m) i = Memory.read (c :: m') i) (i : Nat) :
    m.read i = m'.read i := by
  by_cases hi : i < c.1 + 1
  · rw [Memory.read_of_wfFrom m _ i h hi, Memory.read_of_wfFrom m' _ i h' hi]
  · have hne : c.1 ≠ i := by omega
    simpa only [Memory.read_cons_of_ne _ hne] using hread i

/-- Canonical memories with the same bytes are the same list (R10; log entry 3). -/
theorem Memory.eq_of_read_eq {m m' : Memory} {lo lo' : Nat} (h : m.wfFrom lo = true) (h' : m'.wfFrom lo' = true)
    (hread : ∀ i, m.read i = m'.read i) : m = m' := by
  induction m generalizing lo m' lo' with
  | nil =>
    cases m' with
    | nil => rfl
    | cons d m' =>
      have hle : d.1 + 1 ≤ d.1 := Memory.le_head_of_read_eq (m' := []) h' rfl fun i => (hread i).symm
      omega
  | cons c m ih =>
    cases m' with
    | nil =>
      have hle : c.1 + 1 ≤ c.1 := Memory.le_head_of_read_eq (m' := []) h rfl hread
      omega
    | cons d m' =>
      obtain ⟨-, hc, hm⟩ := (Memory.wfFrom_cons c m lo).1 h
      obtain ⟨-, hd, hm'⟩ := (Memory.wfFrom_cons d m' lo').1 h'
      have hdc : d.1 ≤ c.1 :=
        Memory.le_head_of_read_eq h ((Memory.wfFrom_cons d m' d.1).2 ⟨le_rfl, hd, hm'⟩) hread
      have hcd : c.1 ≤ d.1 :=
        Memory.le_head_of_read_eq h' ((Memory.wfFrom_cons c m c.1).2 ⟨le_rfl, hc, hm⟩) fun i => (hread i).symm
      have hindex : c.1 = d.1 := le_antisymm hcd hdc
      have hbyte : c.2 = d.2 := by
        rw [← Memory.read_cons_self c m, hread, hindex, Memory.read_cons_self]
      obtain rfl : c = d := Prod.ext hindex hbyte
      rw [ih hm hm' (Memory.read_tail_eq hm hm' hread)]

/-- Where the invariant holds, a cell outside the buffer reads as an unlisted one. -/
theorem State.Inv.cell_of_le {s : State} (h : s.Inv) {i : Nat} (hi : s.L ≤ i) : s.cell i = Memory.unlisted i := by
  obtain ⟨-, hlt⟩ := h
  exact Memory.read_of_forall_ne fun c hc => ((hlt c hc).trans_le hi).ne

/-! ### The bounds of the buffer -/

/-- A fetched byte is in the buffer (R19, R56). -/
theorem State.fetchIndex_lt (s : State) (k : Nat) : s.fetchIndex k < s.L := s.resolve_lt _

/-- An operand slot is in the buffer in both modes (R19, R66). -/
theorem State.slotIndex_lt (s : State) (m : AddrMode) (b : Byte) : s.slotIndex m b < s.L := s.resolve_lt _

/-- What a step leaves in every cell: the result in the destination cell, the old byte elsewhere (R77). -/
theorem cell_of_step {s t : State} (h : step s = .next t) (i : Nat) :
    t.cell i = if i = s.destIndex then s.resultByte else s.cell i := by
  rw [step_eq_next s t h, State.dropEntry_cell, State.cell_setCell]

/-! ### Start-up -/

/-- A start-up state holds its seed in every cell of the buffer (R20, R102). -/
theorem State.cell_start {c : Config} {i : Nat} (hi : i < c.L) (f : Nat → Byte) (es : List Int) :
    (State.start c f es).cell i = f i :=
  (Memory.read_ofCells c.L f i).trans (if_pos hi)

/-- The host reads back what it seeded (R103). -/
theorem State.observe_start (c : Config) (f : Nat → Byte) (es : List Int) :
    (State.start c f es).observe = (List.range c.L).map f :=
  List.map_congr_left fun _ hi => State.cell_start (List.mem_range.1 hi) f es

/-! ### The host's entry addresses -/

theorem State.entry_of_cons {s : State} {e : Int} {es : List Int} (h : s.hostEntries = e :: es) : s.entry = e := by
  simp [State.entry, h]

theorem State.entry_of_nil {s : State} (h : s.hostEntries = []) : s.entry = Config.hostEntry s.hostDraws := by
  simp [State.entry, h]

/-- The entry address depends on the host's inputs alone (R13). -/
theorem State.entry_congr {s s' : State} (hes : s.hostEntries = s'.hostEntries)
    (hdraws : s.hostDraws = s'.hostDraws) : s.entry = s'.entry := by
  simp only [State.entry, hes, hdraws]

/-- A chosen entry address is used once (R103). -/
@[simp] theorem State.dropEntry_hostEntries (s : State) : s.dropEntry.hostEntries = s.hostEntries.tail := by
  unfold State.dropEntry
  split
  next hes => simp [hes]
  next hes => simp [hes]

/-- A free draw is taken exactly where no entry address is chosen (log entry 2). -/
@[simp] theorem State.dropEntry_hostDraws (s : State) :
    s.dropEntry.hostDraws = if s.hostEntries = [] then s.hostDraws + 1 else s.hostDraws := by
  unfold State.dropEntry
  split
  next hes => simp [hes]
  next hes => simp [hes]

/-- The next entry address, too, depends on the host's inputs alone (R13, R85). -/
theorem State.dropEntry_entry_congr {s s' : State} (hes : s.hostEntries = s'.hostEntries)
    (hdraws : s.hostDraws = s'.hostDraws) : s.dropEntry.entry = s'.dropEntry.entry :=
  State.entry_congr (by simp [hes])
    (by rw [State.dropEntry_hostDraws, State.dropEntry_hostDraws, hes, hdraws])

/-! ### The statements -/

/-- Settles O37: a step is one write to a cell of the buffer, and a write there keeps the invariant. -/
theorem stepKeepsMemoryForm : Obligations.StepKeepsMemoryForm := by
  unfold Obligations.StepKeepsMemoryForm
  intro s t hs hstep
  rw [step_eq_next s t hstep]
  exact (hs.setCell s.destIndex_lt s.resultByte).dropEntry

/-- Settles O18: equal cells in the buffer and unlisted ones outside it make all reads equal, and these determine a
canonical memory. -/
theorem equalCellsAreEqualMemory : Obligations.EqualCellsAreEqualMemory := by
  unfold Obligations.EqualCellsAreEqualMemory
  intro s t hs ht hL hcells
  refine Memory.eq_of_read_eq hs.1 ht.1 fun i => ?_
  by_cases hi : i < s.L
  · exact hcells i hi
  · exact (hs.cell_of_le (by omega)).trans (ht.cell_of_le (by omega)).symm

/-- Settles O19: every index of a step is a resolution, and the one cell it writes is in the buffer. -/
theorem everyAccessIsInTheBuffer : Obligations.EveryAccessIsInTheBuffer := by
  unfold Obligations.EveryAccessIsInTheBuffer
  intro s
  refine ⟨s.fetchIndex_lt, s.slotIndex_lt, fun t hstep i hi => ?_⟩
  rw [cell_of_step hstep, if_neg (s.destIndex_lt.trans_le hi).ne']

/-- Settles O42, from what a seeded memory lists and what its cells hold. -/
theorem everySeedingIsAStart : Obligations.EverySeedingIsAStart := by
  unfold Obligations.EverySeedingIsAStart
  intro c f es
  exact ⟨State.Inv.start c f es, rfl, fun _ hi => State.cell_start hi f es, State.observe_start c f es, rfl⟩

/-- Settles O44: a step uses up the entry address by the host's inputs alone, and these alone give the next one. -/
theorem entryAddressesComeFromTheHostAlone : Obligations.EntryAddressesComeFromTheHostAlone := by
  unfold Obligations.EntryAddressesComeFromTheHostAlone
  refine ⟨State.present_entry, fun s => ⟨_, step_next s, fun e es hes => ?_, fun hes => ?_⟩,
    fun s s' hes hdraws => ⟨_, _, step_next s, step_next s', State.dropEntry_entry_congr hes hdraws⟩⟩
  · exact ⟨State.entry_of_cons hes, by simp [hes], by simp [hes]⟩
  · exact ⟨State.entry_of_nil hes, by simp [hes], by simp [hes]⟩

end Sys2Proof.Machine

/-! SUPPORT. Proofs of the statements about the memory (20_memory.md): which addresses see a write, which cells a step
reads, what the next step sees of it, and the run as the pseudocode applied in order. -/

namespace Sys2Proof.Machine

/-! ### A read after a write -/

/-- Two addresses name one cell exactly when the length divides their difference (R23). -/
theorem resolve_eq_iff_dvd_sub {L : Nat} (A B : Int) (hL : 0 < L) :
    resolve L B = resolve L A ↔ (L : Int) ∣ B - A := by
  rw [resolve_eq_iff L B A hL, Int.emod_eq_emod_iff_emod_sub_eq_zero, Int.dvd_iff_emod_eq_zero]

/-- After one cell is set, the addresses that name it read the new byte, every other address the old one (R22). -/
theorem State.memRead_setCell (s : State) (i : Nat) (v : Byte) (A : Int) :
    (s.setCell i v).memRead A = if resolve s.L A = i then v else s.memRead A :=
  s.cell_setCell i v (resolve s.L A)

/-- A written byte is read at the congruent addresses, and at no other (R22, R23). -/
theorem State.memRead_memWrite (s : State) (A B : Int) (v : Byte) :
    (s.memWrite A v).memRead B = if (s.L : Int) ∣ B - A then v else s.memRead B := by
  simp only [State.memWrite, State.memRead_setCell, resolve_eq_iff_dvd_sub A B s.L_pos]

/-- An instruction byte fetched at a presented entry address is a memory read (R56). -/
theorem State.present_fetchByte (s : State) (e : Int) (k : Nat) :
    (s.present e).fetchByte k = s.memRead (e + k) := rfl

/-! ### The six cells a step reads -/

section CellsRead

variable {s s' : State} (hconfig : s.config = s'.config) (hentry : s.entry = s'.entry)
include hconfig hentry

/-- An operand slot's index reads no memory (R66). -/
theorem State.slotIndex_congr (m : AddrMode) (b : Byte) : s.slotIndex m b = s'.slotIndex m b := by
  simp only [State.slotIndex, State.L, hconfig, hentry]

/-- A fetched byte's index reads no memory (R56). -/
theorem State.fetchIndex_congr (k : Nat) : s.fetchIndex k = s'.fetchIndex k := by
  simp only [State.fetchIndex, State.L, hconfig, hentry]

/-- A fetched byte is that of its one cell (R56). -/
theorem State.fetchByte_congr {k : Nat} (hk : s.cell (s.fetchIndex k) = s'.cell (s.fetchIndex k)) :
    s.fetchByte k = s'.fetchByte k :=
  hk.trans (congrArg s'.cell (State.fetchIndex_congr hconfig hentry k))

variable (hfetch : ∀ k, k < 4 → s.cell (s.fetchIndex k) = s'.cell (s.fetchIndex k))
include hfetch

/-- The four fetched cells decide the index of an operand slot, its mode bit and its displacement byte (R26). -/
theorem State.fetchedSlot_congr (bit : Nat) {k : Nat} (hk : k < 4) :
    s.slotIndex (.ofBit ((s.fetchByte 0).getLsbD bit)) (s.fetchByte k) =
      s'.slotIndex (.ofBit ((s'.fetchByte 0).getLsbD bit)) (s'.fetchByte k) := by
  rw [State.fetchByte_congr hconfig hentry (hfetch 0 (by decide)),
    State.fetchByte_congr hconfig hentry (hfetch k hk), State.slotIndex_congr hconfig hentry]

theorem State.destIndex_congr : s.destIndex = s'.destIndex :=
  State.fetchedSlot_congr hconfig hentry hfetch 5 (by decide)

theorem State.sourceIndex1_congr : s.sourceIndex1 = s'.sourceIndex1 :=
  State.fetchedSlot_congr hconfig hentry hfetch 7 (by decide)

theorem State.sourceIndex2_congr : s.sourceIndex2 = s'.sourceIndex2 :=
  State.fetchedSlot_congr hconfig hentry hfetch 6 (by decide)

/-- The four fetched and the two source cells decide the result (R26). -/
theorem State.resultByte_congr (h1 : s.cell s.sourceIndex1 = s'.cell s.sourceIndex1)
    (h2 : s.cell s.sourceIndex2 = s'.cell s.sourceIndex2) : s.resultByte = s'.resultByte := by
  rw [State.resultByte, h1, h2, State.sourceIndex1_congr hconfig hentry hfetch,
    State.sourceIndex2_congr hconfig hentry hfetch, State.resultByte]

end CellsRead

/-! ### The step as the pseudocode -/

/-- The raw address by the mode bit, as the pseudocode tests it (R66, R79). -/
theorem rawAddress_ofBit (bit : Bool) (entry d : Int) :
    rawAddress (.ofBit bit) entry d = if bit then d else entry + d := by
  cases bit <;> rfl

/-- Saturating subtraction by the unsigned values, as the pseudocode writes it (R72, R79). -/
theorem ssub8_eq_ite_toNat (a b : Byte) :
    ssub8 a b = if a.toNat > b.toNat then BitVec.ofNat 8 (a.toNat - b.toNat) else 0 := by
  refine ite_congr rfl (fun hlt => ?_) fun _ => rfl
  have hle : b ≤ a := BitVec.le_of_lt hlt
  rw [← BitVec.toNat_sub_of_le hle, BitVec.ofNat_toNat, BitVec.setWidth_eq]

/-- The pseudocode writes the result byte to the destination cell, and nothing else (R79). -/
theorem stepMem_eq_write (s : State) : stepMem s.L s.mem s.entry = s.mem.write s.destIndex s.resultByte := by
  simp only [State.destIndex, State.resultByte, State.sourceIndex1, State.sourceIndex2, State.slotIndex,
    rawAddress_ofBit, ssub8_eq_ite_toNat]
  rfl

/-- An issued entry address has the pseudocode applied to the memory, and all else stands (R79, R103). -/
theorem State.execute_eq_stepMem (s : State) (e : Int) :
    s.execute e = .next { s with mem := stepMem s.L s.mem e } := by
  have hmem : stepMem s.L s.mem e = s.mem.write (s.present e).destIndex (s.present e).resultByte :=
    stepMem_eq_write (s.present e)
  rw [hmem, State.execute_next, State.setCell]

/-! ### The statements -/

/-- Settles O17: the two cases of a read after a write. -/
theorem readAfterWriteByCongruence : Obligations.ReadAfterWriteByCongruence := by
  unfold Obligations.ReadAfterWriteByCongruence
  intro s A B v
  rw [State.memRead_memWrite]
  exact ⟨fun hdvd => if_pos hdvd, fun hdvd => if_neg hdvd⟩

/-- Settles O32: the six cells decide the destination and the result; every other cell keeps its byte in both states. -/
theorem stepReadsOnlySixCells : Obligations.StepReadsOnlySixCells := by
  unfold Obligations.StepReadsOnlySixCells
  intro s s' hconfig hentry hfetch h1 h2
  have hdest : s.destIndex = s'.destIndex := State.destIndex_congr hconfig hentry hfetch
  have hresult : s.resultByte = s'.resultByte := State.resultByte_congr hconfig hentry hfetch h1 h2
  refine ⟨_, _, step_next s, step_next s', hdest.symm, ?_, fun j hj => ?_⟩
  · rw [cell_of_step (step_next s), cell_of_step (step_next s'), if_pos rfl, if_pos hdest, hresult]
  · rw [cell_of_step (step_next s), cell_of_step (step_next s'), ← hdest, ← hresult] at hj
    by_cases hjd : j = s.destIndex
    · simp [hjd] at hj
    · exact ⟨hjd, by simpa [hjd] using hj⟩

/-- Settles O46: the step sets one cell, and both kinds of read are reads of the memory it leaves. -/
theorem everyReadSeesTheStepBefore : Obligations.EveryReadSeesTheStepBefore := by
  unfold Obligations.EveryReadSeesTheStepBefore
  intro s e e'
  refine ⟨_, s.execute_next e, s.memRead_setCell _ _, fun k => ?_⟩
  rw [State.present_fetchByte, State.memRead_setCell]

/-- Settles O47, by induction on the entry addresses: each applies the pseudocode once and keeps all but the memory. -/
theorem runAppliesEntriesInOrder : Obligations.RunAppliesEntriesInOrder := by
  unfold Obligations.RunAppliesEntriesInOrder
  intro es s
  induction es generalizing s with
  | nil => rfl
  | cons e es ih =>
    rw [State.runEntries, State.execute_eq_stepMem]
    exact ih { s with mem := stepMem s.L s.mem e }

end Sys2Proof.Machine

/-! SUPPORT. Proofs of the statements about the encoding (30_encoding.md): the opcode byte and its fields, the two
directions of the round trip, the opcode table's word view, the spelling by the assembler, the pseudo-instructions,
and a word placed where the next step fetches. -/

namespace Sys2Proof

/-! ### The mode bit -/

@[simp] theorem AddrMode.ofBit_toBit (m : AddrMode) : AddrMode.ofBit m.toBit = m := by
  cases m <;> rfl

@[simp] theorem AddrMode.toBit_ofBit (b : Bool) : (AddrMode.ofBit b).toBit = b := by
  cases b <;> rfl

/-- A mode bit of 1 is absolute, and only that (R38). -/
theorem AddrMode.ofBit_eq_absolute_iff (b : Bool) : AddrMode.ofBit b = .absolute ↔ b = true := by
  cases b <;> decide

/-- A mode bit of 0 is relative, and only that (R38). -/
theorem AddrMode.ofBit_eq_relative_iff (b : Bool) : AddrMode.ofBit b = .relative ↔ b = false := by
  cases b <;> decide

/-! ### The opcode byte -/

/-- A bit of a byte as a number (R36). -/
theorem toNat_getLsbD (b : Byte) (k : Nat) : (b.getLsbD k).toNat = b.toNat / 2 ^ k % 2 :=
  Nat.toNat_testBit b.toNat k

/-- Bits put before others weigh above them. -/
theorem toNat_append_eq_add {m n : Nat} (x : BitVec m) (y : BitVec n) :
    (x ++ y).toNat = x.toNat * 2 ^ n + y.toNat := by
  rw [BitVec.toNat_append, ← Nat.shiftLeft_add_eq_or_of_lt y.isLt, Nat.shiftLeft_eq]

/-- The opcode byte by the weights of its fields (R36, R43). -/
theorem toNat_encodeOpcode (m1 m2 md : AddrMode) (fn : BitVec 5) :
    (encodeOpcode m1 m2 md fn).toNat =
      m1.toBit.toNat * 128 + m2.toBit.toNat * 64 + md.toBit.toNat * 32 + fn.toNat := by
  simp only [encodeOpcode, toNat_append_eq_add, BitVec.toNat_ofBool]
  omega

/-- An opcode byte is made again from its mode bits and its low five bits: none is dropped (R36, R41). -/
theorem encodeOpcode_ofBit (b : Byte) :
    encodeOpcode (.ofBit (b.getLsbD 7)) (.ofBit (b.getLsbD 6)) (.ofBit (b.getLsbD 5)) (b.setWidth 5) = b := by
  have hb : b.toNat < 256 := b.isLt
  apply BitVec.eq_of_toNat_eq
  simp only [toNat_encodeOpcode, AddrMode.toBit_ofBit, toNat_getLsbD, BitVec.toNat_setWidth]
  omega

section OpcodeFields

variable (m1 m2 md : AddrMode) (fn : BitVec 5)

/-- Bits 7, 6 and 5 of the opcode byte are the mode bits (R36). -/
theorem getLsbD_encodeOpcode :
    (encodeOpcode m1 m2 md fn).getLsbD 7 = m1.toBit ∧ (encodeOpcode m1 m2 md fn).getLsbD 6 = m2.toBit ∧
      (encodeOpcode m1 m2 md fn).getLsbD 5 = md.toBit := by
  refine ⟨BitVec.getLsbD_append.trans ?_, BitVec.getLsbD_append.trans ?_, BitVec.getLsbD_append.trans ?_⟩
  all_goals
    simp only [BitVec.getLsbD_append]
    simp

/-- The low five bits of the opcode byte are the reserved field (R36, R60). -/
theorem setWidth_encodeOpcode : (encodeOpcode m1 m2 md fn).setWidth 5 = fn :=
  BitVec.setWidth_append_eq_right

end OpcodeFields

/-! ### Encoding and decoding -/

/-- Encoding four decoded bytes gives them back (R35, R41). -/
theorem encode_decode (i0 i1 i2 i3 : Byte) : encode (decode i0 i1 i2 i3) = [i0, i1, i2, i3] := by
  rw [decode, encode, encodeOpcode_ofBit]

/-- Decoding the four bytes of an instruction gives it back, and leaves what follows them (R35, R36, R41). -/
theorem decodeBytes_encode (i : Instr) (rest : List Byte) : decodeBytes (encode i ++ rest) = .ok (i, rest) := by
  cases i with
  | ssub m1 m2 md fn i1 i2 i3 =>
    obtain ⟨h7, h6, h5⟩ := getLsbD_encodeOpcode m1 m2 md fn
    have hdecode : decode (encodeOpcode m1 m2 md fn) i1 i2 i3 = .ssub m1 m2 md fn i1 i2 i3 := by
      simp only [decode, h7, h6, h5, AddrMode.ofBit_toBit, setWidth_encodeOpcode]
    exact congrArg (fun j => Except.ok (j, rest)) hdecode

/-! ### The word view of the opcode table -/

/-- The table decoder decodes the four bytes of its word, whatever they are (R40, R41). -/
theorem decodeTableWord_of_bytes {nbits w : Nat} {b0 b1 b2 b3 : Byte}
    (h : tableWordBytes nbits w = [b0, b1, b2, b3]) : decodeTableWord nbits w = some (decode b0 b1 b2 b3) := by
  rw [decodeTableWord, h, decodeBytes]

/-- The bytes of a 32-bit word view are its slices, the opcode byte the highest (R40). -/
theorem tableWordBytes_toNat (w : BitVec 32) :
    tableWordBytes 32 w.toNat =
      [w.extractLsb' 24 8, w.extractLsb' 16 8, w.extractLsb' 8 8, w.extractLsb' 0 8] := by
  have hw : w.toNat % 2 ^ 32 = w.toNat := Nat.mod_eq_of_lt w.isLt
  simp only [tableWordBytes, hw, BitVec.extractLsb', Nat.shiftRight_eq_div_pow, pow_zero, Nat.div_one]

/-- The low part of a slice is a shorter slice from the same place. -/
theorem setWidth_extractLsb' {n start len len' : Nat} (w : BitVec n) (h : len' ≤ len) :
    (w.extractLsb' start len).setWidth len' = w.extractLsb' start len' := by
  ext k hk
  simp [show k < len by omega]

namespace Machine

/-! ### The assembler's spelling -/

@[simp] theorem AsmOperand.mode_ofSlot (m : AddrMode) (b : Byte) : (AsmOperand.ofSlot m b).mode = m := by
  cases m <;> rfl

@[simp] theorem AsmOperand.disp_ofSlot (m : AddrMode) (b : Byte) : (AsmOperand.ofSlot m b).disp = sext8 b := by
  cases m <;> rfl

/-- A written displacement is well formed when it fits its byte (R43). -/
theorem AsmOperand.wellFormed_iff (o : AsmOperand) : o.wellFormed = true ↔ -128 ≤ o.disp ∧ o.disp ≤ 127 := by
  simp [AsmOperand.wellFormed]

/-- A statement is well formed when each of its fields fits (R43). -/
theorem AsmStmt.wellFormed_iff (t : AsmStmt) : t.wellFormed = true ↔
    t.fn ≤ 31 ∧ t.s1.wellFormed = true ∧ t.s2.wellFormed = true ∧ t.d.wellFormed = true := by
  simp [AsmStmt.wellFormed, and_assoc]

/-- The spelling of a slot fits its byte (R39, R43). -/
theorem AsmOperand.wellFormed_ofSlot (m : AddrMode) (b : Byte) : (AsmOperand.ofSlot m b).wellFormed = true := by
  rw [AsmOperand.wellFormed_iff, AsmOperand.disp_ofSlot]
  exact sext8_mem_range b

/-- A displacement that fits its byte is the signed value of that byte (R43, R61). -/
theorem AsmOperand.sext8_ofInt_disp {o : AsmOperand} (h : o.wellFormed = true) :
    sext8 (BitVec.ofInt 8 o.disp) = o.disp := by
  obtain ⟨hlo, hhi⟩ := o.wellFormed_iff.1 h
  exact BitVec.toInt_ofInt_eq_self (by decide) hlo (Int.lt_add_one_of_le hhi)

/-- A well-formed operand spells the slot of its mode and its displacement byte (R43). -/
theorem AsmOperand.ofSlot_mode_disp {o : AsmOperand} (h : o.wellFormed = true) :
    AsmOperand.ofSlot o.mode (BitVec.ofInt 8 o.disp) = o := by
  have hdisp := AsmOperand.sext8_ofInt_disp h
  cases o with
  | rel n => exact congrArg AsmOperand.rel hdisp
  | abs n => exact congrArg AsmOperand.abs hdisp

/-- What an instruction is spelled as is well formed (R43). -/
theorem disassemble_wellFormed (i : Instr) : (disassemble i).wellFormed = true := by
  cases i with
  | ssub m1 m2 md fn i1 i2 i3 =>
    exact (AsmStmt.wellFormed_iff _).2 ⟨Nat.le_of_lt_succ fn.isLt, AsmOperand.wellFormed_ofSlot m1 i1,
      AsmOperand.wellFormed_ofSlot m2 i2, AsmOperand.wellFormed_ofSlot md i3⟩

/-- What an instruction is spelled as assembles to its encoding (R43). -/
theorem bytes_disassemble (i : Instr) : (disassemble i).bytes = encode i := by
  cases i with
  | ssub m1 m2 md fn i1 i2 i3 =>
    simp only [disassemble, AsmStmt.bytes, AsmOperand.modeNat, AsmOperand.mode_ofSlot, AsmOperand.disp_ofSlot,
      ← toNat_encodeOpcode, BitVec.ofNat_toNat, BitVec.setWidth_eq, sext8, BitVec.ofInt_toInt, encode]

/-- The instruction a statement is written for (R43). -/
def AsmStmt.instr (t : AsmStmt) : Instr :=
  .ssub t.s1.mode t.s2.mode t.d.mode (BitVec.ofNat 5 t.fn) (BitVec.ofInt 8 t.s1.disp) (BitVec.ofInt 8 t.s2.disp)
    (BitVec.ofInt 8 t.d.disp)

/-- The instruction of a well-formed statement is spelled as that statement (R43). -/
theorem disassemble_instr {t : AsmStmt} (h : t.wellFormed = true) : disassemble t.instr = t := by
  obtain ⟨hfn, h1, h2, hd⟩ := t.wellFormed_iff.1 h
  have hfn' : (BitVec.ofNat 5 t.fn).toNat = t.fn := Nat.mod_eq_of_lt (Nat.lt_succ_of_le hfn)
  rw [AsmStmt.instr, disassemble, hfn', AsmOperand.ofSlot_mode_disp h1, AsmOperand.ofSlot_mode_disp h2,
    AsmOperand.ofSlot_mode_disp hd]

/-- The bytes of a well-formed statement are the encoding of its instruction (R43). -/
theorem AsmStmt.bytes_eq_encode {t : AsmStmt} (h : t.wellFormed = true) : t.bytes = encode t.instr := by
  rw [← bytes_disassemble, disassemble_instr h]

/-! ### The pseudo-instructions and the copy -/

/-- A value subtracted from itself is 0 (R75). -/
@[simp] theorem ssub8_self (a : Byte) : ssub8 a a = 0 := if_neg (BitVec.lt_irrefl a)

/-- Subtracting 0 copies (R75). -/
@[simp] theorem ssub8_zero (a : Byte) : ssub8 a 0 = a := by
  rw [ssub8_eq_ite_toNat]
  split
  next => simp
  next hle => exact BitVec.eq_of_toNat_eq (Nat.eq_zero_of_not_pos hle).symm

/-- Every instruction answers a next state (R81). -/
theorem exec_eq_next (i : Instr) (s : State) : ∃ t, exec i s = .next t := by
  cases i with
  | ssub m1 m2 md fn i1 i2 i3 => exact ⟨_, execSsub_next m1 m2 md fn i1 i2 i3 s⟩

/-- A step is the fetched instruction's outcome, with the entry address used up (R79, R85). -/
theorem step_of_exec {s t : State} (h : exec s.fetchInstr s = .next t) : step s = .next t.dropEntry := by
  rw [step, h]

/-- `clr D` writes 0 to its destination: it subtracts the opcode byte's cell from itself (R44). -/
theorem exec_clr (md : AddrMode) (b : Byte) (s : State) :
    exec (.clr md b) s = .next (s.setCell (s.slotIndex md b) 0) := by
  rw [← ssub8_self (s.sourceValue .relative 0)]
  rfl

/-- A cell that takes its old byte leaves every cell as it was. -/
theorem State.cell_setCell_of_eq {s : State} {i : Nat} {v : Byte} (h : s.cell i = v) (j : Nat) :
    (s.setCell i v).cell j = s.cell j := by
  rw [State.cell_setCell]
  split
  next hj => rw [hj, h]
  next => rfl

/-- The relative slot of displacement 0 is the opcode byte's own cell (R65). -/
theorem State.slotIndex_relative_zero (s : State) : s.slotIndex .relative 0 = s.fetchIndex 0 := rfl

/-- A fetched instruction's encoding stands in the four fetched bytes (R35, R56). -/
theorem State.encode_fetchInstr (s : State) :
    encode s.fetchInstr = [s.fetchByte 0, s.fetchByte 1, s.fetchByte 2, s.fetchByte 3] :=
  encode_decode _ _ _ _

/-- Where `nop` is fetched its destination, its own opcode byte, already holds the 0 it writes (R44). -/
theorem State.cell_of_fetchInstr_nop {s : State} (h : s.fetchInstr = .nop) : s.cell (s.slotIndex .relative 0) = 0 := by
  have hbytes := s.encode_fetchInstr
  rw [h] at hbytes
  rw [State.slotIndex_relative_zero]
  exact (List.cons.inj hbytes).1.symm

/-! ### Bytes placed at consecutive addresses -/

@[simp] theorem State.memWriteList_L (vs : List Byte) (A : Int) (s : State) : (s.memWriteList A vs).L = s.L := by
  induction vs generalizing A s with
  | nil => rfl
  | cons v vs ih => exact ih (A + 1) (s.memWrite A v)

@[simp] theorem State.memWriteList_entry (vs : List Byte) (A : Int) (s : State) :
    (s.memWriteList A vs).entry = s.entry := by
  induction vs generalizing A s with
  | nil => rfl
  | cons v vs ih => exact ih (A + 1) (s.memWrite A v)

/-- An address congruent to none of those written reads as before (R22, R23). -/
theorem State.memRead_memWriteList_of_not_dvd {vs : List Byte} {A B : Int} {s : State}
    (h : ∀ k : Nat, k < vs.length → ¬ (s.L : Int) ∣ B - (A + k)) : (s.memWriteList A vs).memRead B = s.memRead B := by
  induction vs generalizing A s with
  | nil => rfl
  | cons v vs ih =>
    have htail : ∀ k : Nat, k < vs.length → ¬ (s.L : Int) ∣ B - (A + 1 + k) := fun k hk => by
      have hnext := h (k + 1) (Nat.succ_lt_succ hk)
      rwa [show A + ((k + 1 : Nat) : Int) = A + 1 + k by omega] at hnext
    have hhead : ¬ (s.L : Int) ∣ B - A := by
      simpa using h 0 (Nat.succ_pos _)
    calc (s.memWriteList A (v :: vs)).memRead B
        = (s.memWrite A v).memRead B := ih (s := s.memWrite A v) htail
      _ = s.memRead B := by rw [State.memRead_memWrite, if_neg hhead]

/-- Bytes that fit the buffer do not fall on one another: each is read at its own address (R57). -/
theorem State.memRead_memWriteList {vs : List Byte} {A : Int} {s : State} (hlen : vs.length ≤ s.L) {k : Nat}
    (hk : k < vs.length) : (s.memWriteList A vs).memRead (A + k) = vs[k] := by
  induction vs generalizing A s k with
  | nil => exact absurd hk (Nat.not_lt_zero k)
  | cons v vs ih =>
    have hlen' : vs.length + 1 ≤ s.L := hlen
    cases k with
    | zero =>
      have hfar : ∀ j : Nat, j < vs.length → ¬ (s.L : Int) ∣ A - (A + 1 + j) := fun j hj hdvd => by
        have hdvd' : (s.L : Int) ∣ ((j + 1 : Nat) : Int) := by
          rw [show ((j + 1 : Nat) : Int) = -(A - (A + 1 + j)) by omega]
          exact hdvd.neg_right
        have hle := Nat.le_of_dvd (Nat.succ_pos j) (Int.natCast_dvd_natCast.1 hdvd')
        omega
      calc (s.memWriteList A (v :: vs)).memRead (A + (0 : Nat))
          = (s.memWriteList A (v :: vs)).memRead A := by rw [Nat.cast_zero, add_zero]
        _ = (s.memWrite A v).memRead A := State.memRead_memWriteList_of_not_dvd (s := s.memWrite A v) hfar
        _ = v := by simp [State.memRead_memWrite]
    | succ k =>
      rw [show A + ((k + 1 : Nat) : Int) = A + 1 + k by omega]
      exact ih (s := s.memWrite A v) (Nat.le_of_succ_le hlen') (Nat.lt_of_succ_lt_succ hk)

/-- Four bytes placed at the entry address are what the step decodes, in a buffer with room for them (R56, R57). -/
theorem State.fetchInstr_memWriteList_entry {s : State} (hL : 4 ≤ s.L) (b0 b1 b2 b3 : Byte) :
    (s.memWriteList s.entry [b0, b1, b2, b3]).fetchInstr = decode b0 b1 b2 b3 := by
  have hfetch : ∀ (k : Nat) (hk : k < 4),
      (s.memWriteList s.entry [b0, b1, b2, b3]).fetchByte k = [b0, b1, b2, b3][k] := fun k hk => by
    rw [State.fetchByte, State.memWriteList_entry]
    exact State.memRead_memWriteList (vs := [b0, b1, b2, b3]) hL hk
  rw [State.fetchInstr, hfetch 0 (by decide), hfetch 1 (by decide), hfetch 2 (by decide), hfetch 3 (by decide)]
  rfl

/-- `withFetchWord` places its bytes at the entry address of the coming step, once the host has chosen one (log
entry 7). -/
theorem State.withFetchWord_eq_memWriteList_entry (s : State) (nbits w : Nat) :
    ∃ s' : State, s'.L = s.L ∧ s.withFetchWord nbits w = s'.memWriteList s'.entry (tableWordBytes nbits w) := by
  unfold State.withFetchWord
  split
  next e es hes => exact ⟨s, rfl, by rw [State.entry_of_cons hes]⟩
  next => exact ⟨s.present 0, rfl, rfl⟩

/-- A word placed in a buffer with room for it is what the next step fetches (log entry 7). -/
theorem State.decodeTableWord_eq_fetchInstr {s : State} (hL : 4 ≤ s.L) (nbits w : Nat) :
    decodeTableWord nbits w = some (s.withFetchWord nbits w).fetchInstr := by
  obtain ⟨s', hL', hplaced⟩ := s.withFetchWord_eq_memWriteList_entry nbits w
  rw [decodeTableWord_of_bytes rfl, hplaced]
  exact congrArg some (State.fetchInstr_memWriteList_entry (hL.trans_eq hL'.symm) _ _ _ _).symm

/-! ### The statements -/

/-- Settles O9: the fields of the encoded opcode byte are read back one by one, and well-formedness refuses nothing. -/
theorem decodeEncodeRoundTrip : Obligations.DecodeEncodeRoundTrip := by
  unfold Obligations.DecodeEncodeRoundTrip
  exact fun i rest _ => decodeBytes_encode i rest

/-- Settles O10: the opcode byte is the sum of its fields. -/
theorem encodeDecodeRoundTrip : Obligations.EncodeDecodeRoundTrip := by
  unfold Obligations.EncodeDecodeRoundTrip
  exact encode_decode

/-- Settles O11: the decoder's modes are bits of the opcode byte, whose values are quotients modulo 2. -/
theorem opcodeByteUnpacking : Obligations.OpcodeByteUnpacking := by
  unfold Obligations.OpcodeByteUnpacking
  intro i0 i1 i2 i3
  have hi0 : i0.toNat < 256 := i0.isLt
  refine ⟨_, _, _, _, rfl, AddrMode.ofBit_eq_absolute_iff _, AddrMode.ofBit_eq_relative_iff _,
    AddrMode.ofBit_eq_absolute_iff _, AddrMode.ofBit_eq_relative_iff _, AddrMode.ofBit_eq_absolute_iff _,
    AddrMode.ofBit_eq_relative_iff _, ?_, ?_, ?_, BitVec.toNat_setWidth 5 i0⟩
  all_goals
    rw [AddrMode.toBit_ofBit, toNat_getLsbD]
    omega

/-- Settles O14: the table decoder reads slices of the word, and the mode bits and `fn` are slices of the highest. -/
theorem tableWordFields : Obligations.TableWordFields := by
  unfold Obligations.TableWordFields
  intro w
  rw [decodeTableWord_of_bytes (tableWordBytes_toNat w), decode, setWidth_extractLsb' w (by decide)]
  simp

/-- Settles O16: spelling an instruction and reading a well-formed statement are inverse, and both keep the bytes. -/
theorem assemblerAgreesWithEncoding : Obligations.AssemblerAgreesWithEncoding := by
  unfold Obligations.AssemblerAgreesWithEncoding
  refine ⟨fun i => ⟨disassemble_wellFormed i, bytes_disassemble i⟩, fun t ht => ⟨t.instr, ?_, disassemble_instr ht⟩⟩
  simpa only [AsmStmt.bytes_eq_encode ht, List.append_nil] using decodeBytes_encode t.instr []

/-- Settles O35: a fetched `nop` writes 0 over its own opcode byte, which is 0; `clr` subtracts a cell from itself; and
a subtraction of 0 copies. -/
theorem nopClrAndCopy : Obligations.NopClrAndCopy := by
  unfold Obligations.NopClrAndCopy
  refine ⟨by decide, fun b => ⟨rfl, rfl⟩, fun s hnop => ?_, fun s md b => ?_, fun s m1 m2 md fn i1 i2 i3 hzero => ?_⟩
  · have hexec : exec s.fetchInstr s = .next (s.setCell (s.slotIndex .relative 0) 0) := by
      rw [hnop]
      exact exec_clr .relative 0 s
    refine ⟨_, step_of_exec hexec, fun j => ?_⟩
    rw [State.dropEntry_cell, State.cell_setCell_of_eq (State.cell_of_fetchInstr_nop hnop)]
  · refine ⟨_, exec_clr md b s, ?_, fun j hj => ?_⟩
    · rw [State.cell_setCell, if_pos rfl]
    · rw [State.cell_setCell, if_neg hj]
  · refine ⟨_, execSsub_next m1 m2 md fn i1 i2 i3 s, ?_⟩
    rw [State.cell_setCell, if_pos rfl, State.sourceValue, State.sourceValue, hzero, ssub8_zero]

/-- Settles O36: the four bytes of the word stand at the entry address, where the step fetches them. -/
theorem placedWordIsTheNextInstruction : Obligations.PlacedWordIsTheNextInstruction := by
  unfold Obligations.PlacedWordIsTheNextInstruction
  intro s nbits w hL
  obtain ⟨t, hexec⟩ := exec_eq_next (s.withFetchWord nbits w).fetchInstr (s.withFetchWord nbits w)
  exact ⟨_, State.decodeTableWord_eq_fetchInstr hL nbits w, rfl, t, hexec, step_of_exec hexec⟩

/-- Settles O15, by evaluating the decoder on each word. -/
theorem knownWordsDecode : Obligations.KnownWordsDecode := by
  unfold Obligations.KnownWordsDecode
  decide

end Machine

end Sys2Proof

/-! SUPPORT. Proofs of the statements about the address resolver (40_address_resolver.md): the lengths a machine
can have, the contract and its laws, the truncated remainder, powers of two, and the reference loops and their turns. -/

namespace Sys2Proof

/-! ### The lengths a machine can have -/

/-- A configuration of `n` cells exists exactly as one whose length is `n` (R50, R102). -/
theorem Config.ofLength?_eq_some_iff (n : Nat) (c : Config) : Config.ofLength? n = some c ↔ c.L = n := by
  cases n with
  | zero => simp [Config.ofLength?, Config.L]
  | succ n => cases c; simp [Config.ofLength?, Config.L, eq_comm]

/-- No configuration is made of 0 cells, and of no other number (R50). -/
theorem Config.ofLength?_eq_none_iff (n : Nat) : Config.ofLength? n = none ↔ n = 0 := by
  cases n <;> simp [Config.ofLength?]

namespace Machine

/-! ### The contract and the laws -/

/-- A resolved address is congruent to the address (R46). -/
theorem dvd_resolve_sub (L : Nat) (A : Int) (hL : 0 < L) : (L : Int) ∣ resolve L A - A :=
  (resolve_eq_iff_dvd_sub A (resolve L A) hL).1 (resolve_resolve L A hL)

/-- An address in range is returned unchanged (R51). -/
theorem resolve_of_lt {L : Nat} {A : Int} (h0 : 0 ≤ A) (hlt : A < L) : (resolve L A : Int) = A := by
  rw [resolve_cast L A (by omega), Int.emod_eq_of_lt h0 hlt]

/-- The contract determines the index (R46). -/
theorem eq_resolve_of_dvd_sub {L : Nat} {A i : Int} (h0 : 0 ≤ i) (hlt : i < L) (hdvd : (L : Int) ∣ i - A) :
    i = resolve L A := by
  rw [← (resolve_eq_iff_dvd_sub A i (by omega)).2 hdvd, resolve_of_lt h0 hlt]

/-- The closed form with the floored quotient (R46). -/
theorem resolve_eq_sub_fdiv (L : Nat) (A : Int) (hL : 0 < L) : (resolve L A : Int) = A - L * A.fdiv L := by
  rw [resolve_cast L A hL, Int.emod_def, Int.fdiv_eq_ediv_of_nonneg A (Int.natCast_nonneg L)]

/-- The resolver is periodic in its address (R52). -/
theorem resolve_add_mul (L : Nat) (A k : Int) (hL : 0 < L) : resolve L (A + k * L) = resolve L A := by
  rw [resolve_eq_iff L _ _ hL, Int.add_mul_emod_self_right]

/-! ### Against the truncated remainder -/

/-- The truncated remainder of a negative address that the length does not divide lies one length below the floored
one (R48). -/
theorem tmod_of_neg_eq_sub {L : Nat} {A : Int} (hA : A < 0) (hdvd : ¬ (L : Int) ∣ A) :
    A.tmod L = A % (L : Int) - L := by
  rw [Int.tmod_eq_emod, if_neg (by simp [hdvd, hA]), Int.natAbs_natCast]

/-! ### Powers of two -/

/-- The low bits of an address in two's complement are its floored modulo, at every width that has them (R54). -/
theorem toNat_setWidth_ofInt_eq_resolve {n w : Nat} (h : n ≤ w) (A : Int) :
    ((BitVec.ofInt w A).setWidth n).toNat = resolve (2 ^ n) A := by
  have hdvd : ((2 ^ n : Nat) : Int) ∣ ((2 ^ w : Nat) : Int) := Int.natCast_dvd_natCast.2 (pow_dvd_pow 2 h)
  have hw : (0 : Int) ≤ A % ((2 ^ w : Nat) : Int) := Int.emod_nonneg A (by positivity)
  rw [BitVec.toNat_setWidth, BitVec.toNat_ofInt, resolve, ← Int.emod_emod_of_dvd A hdvd,
    Int.toNat_emod hw (Int.natCast_nonneg _), Int.toNat_natCast]

/-! ### The reference loops -/

/-- The first loop takes no turn on an address that is not negative (R47). -/
theorem raiseLoop_of_nonneg {A : Int} (h0 : 0 ≤ A) (n L : Nat) : raiseLoop n L A = some A := by
  cases n <;> exact if_neg (by omega)

/-- The second loop takes no turn on an address below the length (R47). -/
theorem lowerLoop_of_lt {L : Nat} {A : Int} (hlt : A < L) (n : Nat) : lowerLoop n L A = some A := by
  cases n <;> exact if_neg (by omega)

section EnoughTurns

variable {L : Nat} {A : Int} (hL : 0 < L)
include hL

/-- Enough additions raise a negative address to its index: each keeps the index, and the last one lands below the
length (R47). -/
theorem raiseLoop_of_neg {n : Nat} (hA : A < 0) (hn : 0 ≤ A + n * L) :
    raiseLoop n L A = some (resolve L A : Int) := by
  induction n generalizing A with
  | zero => omega
  | succ n ih =>
    have hn' : 0 ≤ A + L + n * L := by push_cast at hn; linarith
    have hperiod : resolve L (A + L) = resolve L A := by simpa using resolve_add_mul L A 1 hL
    rw [raiseLoop, if_pos hA, ← hperiod]
    by_cases hneg : A + L < 0
    · exact ih hneg hn'
    · rw [raiseLoop_of_nonneg (by omega), resolve_of_lt (by omega) (by omega)]

/-- Enough subtractions lower an address that is not negative to its index: each keeps the index, and none is made
below the length (R47). -/
theorem lowerLoop_of_nonneg {n : Nat} (hA : 0 ≤ A) (hn : A < L + n * L) :
    lowerLoop n L A = some (resolve L A : Int) := by
  induction n generalizing A with
  | zero =>
    have hlt : A < L := by simpa using hn
    rw [lowerLoop_of_lt hlt, resolve_of_lt hA hlt]
  | succ n ih =>
    by_cases hlt : A < L
    · rw [lowerLoop_of_lt hlt, resolve_of_lt hA hlt]
    · have hn' : A - L < L + n * L := by push_cast at hn; linarith
      have hperiod : resolve L (A - L) = resolve L A := by
        simpa [← sub_eq_add_neg] using resolve_add_mul L A (-1) hL
      rw [lowerLoop, if_pos (by omega), ← hperiod]
      exact ih (by omega) hn'

/-- Both loops on a negative address: the additions do all the work (R47). -/
theorem resolveLoop_of_neg {up : Nat} (hA : A < 0) (hup : 0 ≤ A + up * L) (down : Nat) :
    resolveLoop up down L A = some (resolve L A : Int) := by
  rw [resolveLoop, raiseLoop_of_neg hL hA hup, Option.bind_some]
  exact lowerLoop_of_lt (Int.ofNat_lt.2 (resolve_lt L A hL)) down

/-- Both loops on an address that is not negative: the subtractions do all the work (R47). -/
theorem resolveLoop_of_nonneg {down : Nat} (hA : 0 ≤ A) (hdown : A < L + down * L) (up : Nat) :
    resolveLoop up down L A = some (resolve L A : Int) := by
  rw [resolveLoop, raiseLoop_of_nonneg hA, Option.bind_some, lowerLoop_of_nonneg hL hA hdown]

/-- As many turns as the address is far from 0 are enough, whatever the length (R47). -/
theorem resolveLoop_of_natAbs_le {up down : Nat} (hup : A.natAbs ≤ up) (hdown : A.natAbs ≤ down) :
    resolveLoop up down L A = some (resolve L A : Int) := by
  by_cases hA : A < 0
  · have hle : up ≤ up * L := Nat.le_mul_of_pos_right up hL
    exact resolveLoop_of_neg hL hA (by rw [← Nat.cast_mul]; omega) down
  · have hle : down ≤ down * L := Nat.le_mul_of_pos_right down hL
    exact resolveLoop_of_nonneg hL (by omega) (by rw [← Nat.cast_mul]; omega) up

end EnoughTurns

/-! ### The addresses of one step -/

/-- The raw addresses of a step whose entry address is in range: from 128 below the buffer to 127 above its last cell
(R55). -/
theorem State.address_mem_range {s : State} {A : Int} (h0 : 0 ≤ s.entry) (hlt : s.entry < s.L)
    (hA : (∃ k : Nat, k < 4 ∧ A = s.entry + k) ∨ ∃ m b, A = rawAddress m s.entry (sext8 b)) :
    -128 ≤ A ∧ A ≤ s.L + 126 := by
  obtain ⟨k, hk, rfl⟩ | ⟨m, b, rfl⟩ := hA
  · omega
  · obtain ⟨hlo, hhi⟩ := sext8_mem_range b
    cases m with
    | absolute => simp only [rawAddress]; omega
    | relative => simp only [rawAddress]; omega

/-- The additions allowed span 128 cells (R55). -/
theorem le_ceil_div_mul {L : Nat} (hL : 0 < L) : 128 ≤ (128 + L - 1) / L * L := by
  have h := Nat.lt_div_mul_add hL (a := 128 + L - 1)
  omega

/-- The subtractions allowed span 127 cells and the length more than is needed (R55). -/
theorem lt_one_add_div_mul {L : Nat} (hL : 0 < L) : 126 < (1 + 126 / L) * L := by
  have h := Nat.lt_div_mul_add hL (a := 126)
  rw [Nat.add_mul]
  omega

/-! ### The statements -/

/-- Settles O1: the floored modulo is in range and congruent, and only one index is. -/
theorem resolverIsFlooredModulo : Obligations.ResolverIsFlooredModulo := by
  unfold Obligations.ResolverIsFlooredModulo
  exact ⟨fun L A hL => ⟨resolve_lt L A hL, dvd_resolve_sub L A hL, fun _ => eq_resolve_of_dvd_sub,
    resolve_eq_sub_fdiv L A hL⟩, by decide⟩

/-- Settles O2: a turn moves the address by at least 1, so its distance from 0 is enough turns. -/
theorem referenceLoopMatchesResolver : Obligations.ReferenceLoopMatchesResolver := by
  unfold Obligations.ReferenceLoopMatchesResolver
  exact fun L A hL => ⟨A.natAbs, fun _ _ => resolveLoop_of_natAbs_le hL⟩

/-- Settles O3: the truncated remainder of a negative address is the index less the length, but 0 where the length
divides the address. -/
theorem resolverIsNotTruncatedRemainder : Obligations.ResolverIsNotTruncatedRemainder := by
  unfold Obligations.ResolverIsNotTruncatedRemainder
  intro L A hL
  have hcast := resolve_cast L A hL
  have hlt := resolve_lt L A hL
  refine ⟨fun hA => ?_, fun hA hdvd => ?_, fun hA hdvd => ?_⟩
  · rw [hcast, Int.tmod_eq_emod_of_nonneg hA]
  · have htmod := tmod_of_neg_eq_sub hA hdvd
    omega
  · have hmod := Int.emod_eq_zero_of_dvd hdvd
    exact ⟨Int.tmod_eq_zero_of_dvd hdvd, by omega⟩

/-- Settles O4, from the contract and the address in range. -/
theorem resolverCorrectAndIdempotent : Obligations.ResolverCorrectAndIdempotent := by
  unfold Obligations.ResolverCorrectAndIdempotent
  intro L A hL
  have hlt := resolve_lt L A hL
  have hmod : (A - resolve L A) % (L : Int) = 0 :=
    Int.emod_eq_zero_of_dvd ((dvd_sub_comm).1 (dvd_resolve_sub L A hL))
  exact ⟨⟨by omega, by omega, hmod⟩, resolve_resolve L A hL, resolve_of_lt⟩

/-- Settles O5: an index is a class of congruent addresses, and offsets respect the classes. -/
theorem resolverPeriodicAndEarly : Obligations.ResolverPeriodicAndEarly := by
  unfold Obligations.ResolverPeriodicAndEarly
  exact fun L A B k hL => ⟨resolve_add_mul L A k hL, resolve_eq_iff_dvd_sub B A hL,
    resolve_add_congr hL (resolve_resolve L A hL).symm B⟩

/-- Settles O6: the bits of two's complement are a modulo by a power of two, of which a lower power is the resolver. -/
theorem powerOfTwoResolverTakesLowBits : Obligations.PowerOfTwoResolverTakesLowBits := by
  unfold Obligations.PowerOfTwoResolverTakesLowBits
  exact ⟨fun _ _ A h => (toNat_setWidth_ofInt_eq_resolve h A).symm, by decide, by decide⟩

/-- Settles O7: the addresses of a step reach 128 below the buffer and 126 above its length, which the turns span. -/
theorem loopTurnsOfOneStepAreBounded : Obligations.LoopTurnsOfOneStepAreBounded := by
  unfold Obligations.LoopTurnsOfOneStepAreBounded
  intro s A h0 hlt hA
  obtain ⟨hlo, hhi⟩ := State.address_mem_range h0 hlt hA
  have hup := le_ceil_div_mul s.L_pos
  have hdown := lt_one_add_div_mul s.L_pos
  refine ⟨fun hneg => ?_, fun habove => ?_, fun hnonneg hbelow => ?_⟩
  · exact resolveLoop_of_neg s.L_pos hneg (by rw [← Nat.cast_mul]; omega) 0
  · exact resolveLoop_of_nonneg s.L_pos (by omega) (by rw [← Nat.cast_mul]; omega) 0
  · exact resolveLoop_of_nonneg s.L_pos hnonneg (by simpa using hbelow) 0

/-- Settles O41: a configuration made of `n` cells has the length `n`, and every length is positive. -/
theorem configurationRefusesOnlyZero : Obligations.ConfigurationRefusesOnlyZero := by
  unfold Obligations.ConfigurationRefusesOnlyZero
  exact fun n => ⟨Config.ofLength?_eq_none_iff n,
    fun c hc => ⟨(Config.ofLength?_eq_some_iff n c).1 hc, Nat.succ_pos _⟩⟩

end Machine

end Sys2Proof

/-! SUPPORT. Proofs of the statements about the fetch and the decoder (41_fetch_decode.md): the opcode bits that no
meaning reads, the wrapping of the four instruction bytes, and the step as the outcome of what they decode to. -/

namespace Sys2Proof

/-! ### The mode bits and the reserved field -/

/-- Opcodes that agree above the reserved field have the same mode bits (R36, R59). -/
theorem getLsbD_eq_of_div_eq {b c : Byte} (h : b.toNat / 32 = c.toNat / 32) (k : Nat) :
    b.getLsbD (k + 5) = c.getLsbD (k + 5) :=
  calc b.getLsbD (k + 5)
      = (b.toNat / 32).testBit k := (Nat.testBit_div_two_pow (n := 5) b.toNat k).symm
    _ = (c.toNat / 32).testBit k := by rw [h]
    _ = c.getLsbD (k + 5) := Nat.testBit_div_two_pow (n := 5) c.toNat k

/-- Opcodes that agree above the reserved field decode to one instruction but for that field (R59, R60). -/
theorem decode_eq_of_div_eq {i0 j0 : Byte} (h : i0.toNat / 32 = j0.toNat / 32) (i1 i2 i3 : Byte) :
    decode i0 i1 i2 i3 = .ssub (.ofBit (j0.getLsbD 7)) (.ofBit (j0.getLsbD 6)) (.ofBit (j0.getLsbD 5))
      (i0.setWidth 5) i1 i2 i3 := by
  rw [decode, getLsbD_eq_of_div_eq h 2, getLsbD_eq_of_div_eq h 1, getLsbD_eq_of_div_eq h 0]

namespace Machine

/-- No meaning reads the reserved field (R60, R76). -/
theorem exec_ssub_fn_congr (m1 m2 md : AddrMode) (fn fn' : BitVec 5) (i1 i2 i3 : Byte) (s : State) :
    exec (.ssub m1 m2 md fn i1 i2 i3) s = exec (.ssub m1 m2 md fn' i1 i2 i3) s :=
  (execSsub_next m1 m2 md fn i1 i2 i3 s).trans (execSsub_next m1 m2 md fn' i1 i2 i3 s).symm

/-! ### The wrapping of the fetch -/

/-- An address that is a natural number resolves to its remainder (R46). -/
theorem resolve_natCast (L n : Nat) : resolve L n = n % L := rfl

/-- The index of a later byte, from that of an earlier one: the reduction may be done early (R53, R57). -/
theorem State.fetchIndex_add (s : State) (k j : Nat) : s.fetchIndex (k + j) = (s.fetchIndex k + j) % s.L :=
  calc s.fetchIndex (k + j)
      = resolve s.L (s.entry + k + j) := by rw [State.fetchIndex, Nat.cast_add, add_assoc]
    _ = resolve s.L ((s.fetchIndex k : Int) + j) := resolve_add_congr s.L_pos (resolve_resolve _ _ s.L_pos).symm j
    _ = (s.fetchIndex k + j) % s.L := by rw [← Nat.cast_add, resolve_natCast]

/-- A fetched byte is the cell at its index (R56). -/
theorem State.fetchByte_eq_cell (s : State) (k : Nat) : s.fetchByte k = s.cell (s.fetchIndex k) := rfl

/-- Bytes a whole buffer apart have one index (R57). -/
theorem State.fetchIndex_add_L (s : State) (k : Nat) : s.fetchIndex (k + s.L) = s.fetchIndex k := by
  rw [State.fetchIndex_add, Nat.add_mod_right, Nat.mod_eq_of_lt (s.fetchIndex_lt k)]

/-- Bytes a whole buffer apart are one byte (R57). -/
theorem State.fetchByte_add_L (s : State) (k : Nat) : s.fetchByte (k + s.L) = s.fetchByte k := by
  rw [State.fetchByte_eq_cell, State.fetchIndex_add_L, State.fetchByte_eq_cell]

/-- An instruction whose opcode stands in the last cell but one has its last two bytes in the first cells (R57). -/
theorem State.fetchIndex_of_eq_L_sub_two {s : State} (hL : 2 ≤ s.L) (h : s.fetchIndex 0 = s.L - 2) :
    s.fetchIndex 1 = s.L - 1 ∧ s.fetchIndex 2 = 0 ∧ s.fetchIndex 3 = 1 := by
  have h1 : s.fetchIndex 1 = s.L - 1 := by
    rw [s.fetchIndex_add 0 1, h, Nat.mod_eq_of_lt (by omega)]
    omega
  have h2 : s.fetchIndex 2 = 0 := by
    rw [s.fetchIndex_add 1 1, h1, Nat.sub_add_cancel s.L_pos, Nat.mod_self]
  have h3 : s.fetchIndex 3 = 1 := by
    rw [s.fetchIndex_add 2 1, h2, Nat.mod_eq_of_lt (by omega)]
  exact ⟨h1, h2, h3⟩

/-! ### The step and its decoded instruction -/

/-- The four bytes at the entry address decode to the fetched instruction, and nothing follows them (R56, R58). -/
theorem State.decodeBytes_entry (s : State) :
    decodeBytes [s.cell (resolve s.L (s.entry + 0)), s.cell (resolve s.L (s.entry + 1)),
      s.cell (resolve s.L (s.entry + 2)), s.cell (resolve s.L (s.entry + 3))] = .ok (s.fetchInstr, []) := rfl

/-- No instruction changes the host's inputs (R85). -/
theorem exec_hostInputs {i : Instr} {s t : State} (h : exec i s = .next t) :
    t.hostEntries = s.hostEntries ∧ t.hostDraws = s.hostDraws := by
  cases i with
  | ssub m1 m2 md fn i1 i2 i3 =>
    cases (execSsub_next m1 m2 md fn i1 i2 i3 s).symm.trans h
    exact ⟨State.setCell_hostEntries s _ _, State.setCell_hostDraws s _ _⟩

/-- A chosen entry address is dropped from the host's list (log entry 2). -/
theorem State.dropEntry_of_cons {s : State} {e : Int} {es : List Int} (h : s.hostEntries = e :: es) :
    s.dropEntry = { s with hostEntries := es } := by
  simp [State.dropEntry, h]

/-- Where the host has chosen no entry address, a free draw is counted (log entry 2). -/
theorem State.dropEntry_of_nil {s : State} (h : s.hostEntries = []) :
    s.dropEntry = { s with hostDraws := s.hostDraws + 1 } := by
  simp [State.dropEntry, h]

/-! ### The statements -/

/-- Settles O13: the mode bits lie above the reserved field, and no meaning reads that field. -/
theorem reservedFieldIsIgnored : Obligations.ReservedFieldIsIgnored := by
  unfold Obligations.ReservedFieldIsIgnored
  intro i0 j0 i1 i2 i3 s
  refine ⟨⟨_, _, _, _, rfl, BitVec.toNat_setWidth 5 i0⟩, fun h => ?_⟩
  rw [decode_eq_of_div_eq h]
  exact exec_ssub_fn_congr _ _ _ _ _ i1 i2 i3 s

/-- Settles O20: each index is the one before it plus 1 modulo the length, and repeats after a whole buffer. -/
theorem fetchWrapsByteByByte : Obligations.FetchWrapsByteByByte := by
  unfold Obligations.FetchWrapsByteByByte
  intro s
  refine ⟨s.fetchByte_eq_cell, fun k => s.fetchIndex_add k 1, State.fetchIndex_of_eq_L_sub_two, fun hL => ?_,
    fun hL => ?_, fun hL k => ?_⟩
  · have hindex := s.fetchIndex_add_L 0
    have hbyte := s.fetchByte_add_L 0
    rw [hL] at hindex hbyte
    exact ⟨hindex, hbyte⟩
  · have hbyte0 := s.fetchByte_add_L 0
    have hbyte1 := s.fetchByte_add_L 1
    rw [hL] at hbyte0 hbyte1
    exact ⟨hbyte0, hbyte1⟩
  · have hlt := s.fetchIndex_lt k
    omega

/-- Settles O28: the decoded instruction is the fetched one, and its outcome leaves the host's inputs to the step. -/
theorem stepRunsTheDecodedInstruction : Obligations.StepRunsTheDecodedInstruction := by
  unfold Obligations.StepRunsTheDecodedInstruction
  intro s i _ hbytes
  cases s.decodeBytes_entry.symm.trans hbytes
  obtain ⟨t, hexec⟩ := exec_eq_next s.fetchInstr s
  obtain ⟨hentries, hdraws⟩ := exec_hostInputs hexec
  rw [step_of_exec hexec, hexec]
  cases hes : s.hostEntries with
  | cons e es => exact congrArg Host.Outcome.next (State.dropEntry_of_cons (hentries.trans hes))
  | nil =>
    rw [← hdraws]
    exact congrArg Host.Outcome.next (State.dropEntry_of_nil (hentries.trans hes))

end Machine

end Sys2Proof

/-! SUPPORT. Proofs of the statements about the operand addresses (42_operand_address.md): where the two addressing
modes agree, which cells each can name, and the entry address modulo the length. -/

namespace Sys2Proof.Machine

/-! ### The raw addresses of a slot -/

/-- In both modes a slot's raw address is that of displacement 0 plus the displacement (R66). -/
theorem rawAddress_eq_add (m : AddrMode) (entry d : Int) : rawAddress m entry d = rawAddress m entry 0 + d := by
  cases m with
  | absolute => exact (zero_add d).symm
  | relative => exact congrArg (· + d) (add_zero entry).symm

/-- The displacements are the integers from -128 to 127 (R39, R61). -/
theorem exists_sext8_iff {p : Int → Prop} : (∃ b, p (sext8 b)) ↔ ∃ d, -128 ≤ d ∧ d ≤ 127 ∧ p d := by
  constructor
  · rintro ⟨b, hb⟩
    obtain ⟨hlo, hhi⟩ := sext8_mem_range b
    exact ⟨sext8 b, hlo, hhi, hb⟩
  · rintro ⟨d, hlo, hhi, hd⟩
    have hsext : sext8 (BitVec.ofInt 8 d) = d := BitVec.toInt_ofInt_eq_self (by decide) hlo (by omega)
    exact ⟨BitVec.ofInt 8 d, hsext.symm ▸ hd⟩

/-- The cells a mode can name are those of its 256 raw addresses (R64, R65). -/
theorem State.exists_slotIndex_eq_iff (s : State) (m : AddrMode) (i : Nat) :
    (∃ b, s.slotIndex m b = i) ↔ ∃ d, -128 ≤ d ∧ d ≤ 127 ∧ resolve s.L (rawAddress m s.entry d) = i :=
  exists_sext8_iff (p := fun d => resolve s.L (rawAddress m s.entry d) = i)

/-! ### The cells of a range of addresses -/

/-- As many consecutive addresses as the buffer has cells name every cell (R68). -/
theorem exists_resolve_eq {L i : Nat} (hi : i < L) (lo : Int) : ∃ A, lo ≤ A ∧ A < lo + L ∧ resolve L A = i := by
  have hL : 0 < L := by omega
  have hlt := resolve_lt L (i - lo) hL
  refine ⟨resolve L (i - lo) + lo, by omega, by omega, ?_⟩
  calc resolve L (resolve L (i - lo) + lo)
      = resolve L (i - lo + lo) := resolve_add_congr hL (resolve_resolve L _ hL) lo
    _ = i := by rw [sub_add_cancel, resolve_natCast, Nat.mod_eq_of_lt hi]

/-- An address within one length below the buffer is raised by that length (R48). -/
theorem resolve_of_neg {L : Nat} {A : Int} (hlo : -L ≤ A) (hneg : A < 0) : (resolve L A : Int) = A + L := by
  have hperiod := resolve_add_mul L A 1 (by omega)
  rw [one_mul] at hperiod
  rw [← hperiod, resolve_of_lt (by omega) (by omega)]

/-- A buffer of at most 256 cells is in the reach of both modes (R68). -/
theorem State.exists_slotIndex_eq {s : State} (hL : s.L ≤ 256) (m : AddrMode) {i : Nat} (hi : i < s.L) :
    ∃ b, s.slotIndex m b = i := by
  obtain ⟨A, hlo, hhi, hA⟩ := exists_resolve_eq hi (rawAddress m s.entry 0 - 128)
  refine (s.exists_slotIndex_eq_iff m i).2 ⟨A - rawAddress m s.entry 0, by omega, by omega, ?_⟩
  rw [rawAddress_eq_add, add_sub_cancel, hA]

/-- In a buffer of at least 256 cells absolute mode reaches 128 cells at each end (R64, R68). -/
theorem State.exists_slotIndex_absolute_eq_iff {s : State} (hL : 256 ≤ s.L) {i : Nat} (hi : i < s.L) :
    (∃ b, s.slotIndex .absolute b = i) ↔ i ≤ 127 ∨ s.L - 128 ≤ i := by
  rw [s.exists_slotIndex_eq_iff]
  simp only [rawAddress]
  constructor
  · rintro ⟨d, hlo, hhi, rfl⟩
    by_cases hneg : d < 0
    · have hd := resolve_of_neg (L := s.L) (by omega) hneg
      omega
    · have hd := resolve_of_lt (L := s.L) (A := d) (by omega) (by omega)
      omega
  · rintro (hlow | hhigh)
    · have hd := resolve_of_lt (L := s.L) (A := i) (by omega) (by omega)
      exact ⟨i, by omega, by omega, by omega⟩
    · have hd := resolve_of_neg (L := s.L) (A := i - s.L) (by omega) (by omega)
      exact ⟨i - s.L, by omega, by omega, by omega⟩

/-- Relative mode reaches the cells of the 256 addresses around the entry address (R65, R68). -/
theorem State.exists_slotIndex_relative_eq_iff (s : State) (i : Nat) :
    (∃ b, s.slotIndex .relative b = i) ↔
      ∃ A : Int, s.entry - 128 ≤ A ∧ A ≤ s.entry + 127 ∧ resolve s.L A = i := by
  rw [s.exists_slotIndex_eq_iff]
  constructor
  · rintro ⟨d, hlo, hhi, hd⟩
    exact ⟨s.entry + d, by omega, by omega, hd⟩
  · rintro ⟨A, hlo, hhi, hA⟩
    refine ⟨A - s.entry, by omega, by omega, ?_⟩
    rw [rawAddress, add_sub_cancel, hA]

/-! ### Relative against absolute -/

/-- Adding an entry address leaves an index as it is exactly when the length divides that address (R70). -/
theorem resolve_add_eq_iff {L : Nat} (hL : 0 < L) (e d : Int) :
    resolve L (e + d) = resolve L d ↔ e % (L : Int) = 0 := by
  rw [resolve_eq_iff_dvd_sub _ _ hL, add_sub_cancel_right, Int.dvd_iff_emod_eq_zero]

/-! ### The statements -/

/-- Settles O21: the two indices differ by the entry address, which the resolver removes exactly at the multiples of
the length. -/
theorem modesAgreeExactlyAtMultiplesOfLength : Obligations.ModesAgreeExactlyAtMultiplesOfLength := by
  unfold Obligations.ModesAgreeExactlyAtMultiplesOfLength
  intro s b
  refine ⟨s.slotIndex_relative b, s.slotIndex_absolute b, ?_, fun hbit => ?_, fun hbit => ?_⟩
  · rw [s.slotIndex_relative, s.slotIndex_absolute, resolve_add_eq_iff s.L_pos]
  · rw [State.sourceIndex1, (AddrMode.ofBit_eq_relative_iff _).2 hbit, s.slotIndex_relative]
  · rw [State.sourceIndex1, (AddrMode.ofBit_eq_absolute_iff _).2 hbit, s.slotIndex_absolute]

/-- Settles O22: a slot has 256 consecutive raw addresses, which name every cell of a buffer no longer than that. -/
theorem reachOfTheAddressingModes : Obligations.ReachOfTheAddressingModes := by
  unfold Obligations.ReachOfTheAddressingModes
  exact fun s => ⟨fun hL m _ hi => State.exists_slotIndex_eq hL m hi,
    fun hL _ hi => State.exists_slotIndex_absolute_eq_iff hL hi, s.exists_slotIndex_relative_eq_iff⟩

/-- Settles O23: a step depends on its entry address only through the cell that address names. -/
theorem stepDependsOnEntryModuloLength : Obligations.StepDependsOnEntryModuloLength := by
  unfold Obligations.StepDependsOnEntryModuloLength
  exact fun s e k => ⟨State.execute_congr (resolve_add_mul s.L e k s.L_pos), s.execute_resolve e⟩

end Sys2Proof.Machine

/-! SUPPORT. Proofs of the statements about the ALU (43_alu.md): the value of saturating subtraction, its laws, and its
rendering by a 9-bit difference. -/

namespace Sys2Proof.Machine

/-! ### The difference, saturated -/

/-- Saturating subtraction is the truncated difference of the unsigned values (R72). -/
@[simp] theorem toNat_ssub8 (a b : Byte) : (ssub8 a b).toNat = a.toNat - b.toNat := by
  rw [ssub8_eq_ite_toNat]
  split
  next => exact Nat.mod_eq_of_lt (by omega)
  next hle => exact (Nat.sub_eq_zero_of_le (Nat.not_lt.1 hle)).symm

/-- The result is 0 exactly where nothing is left (R75). -/
theorem ssub8_eq_zero_iff (a b : Byte) : ssub8 a b = 0 ↔ a ≤ b := by
  rw [← BitVec.toNat_inj, toNat_ssub8, BitVec.le_def]
  exact Nat.sub_eq_zero_iff_le

/-- The result is at most the minuend (R72, R75). -/
theorem ssub8_le (a b : Byte) : ssub8 a b ≤ a := by
  rw [BitVec.le_def, toNat_ssub8]
  exact Nat.sub_le _ _

/-- Subtracting from 0 leaves 0 (R75). -/
@[simp] theorem zero_ssub8 (b : Byte) : ssub8 0 b = 0 := (ssub8_eq_zero_iff 0 b).2 (Nat.zero_le _)

/-- Where the result is positive, the operands swapped give 0 (R75). -/
theorem ssub8_swap_eq_zero {a b : Byte} (h : 0 < ssub8 a b) : ssub8 b a = 0 := by
  rw [BitVec.lt_def, toNat_ssub8] at h
  exact (ssub8_eq_zero_iff b a).2 (Nat.lt_of_sub_pos h).le

/-- Repeated subtraction is one subtraction of the saturated sum: no byte exceeds the cap of 255 (R75). -/
theorem ssub8_ssub8 (a b c : Byte) :
    ssub8 (ssub8 a b) c = ssub8 a (BitVec.ofNat 8 (min 255 (b.toNat + c.toNat))) := by
  have hsum : (BitVec.ofNat 8 (min 255 (b.toNat + c.toNat))).toNat = min 255 (b.toNat + c.toNat) :=
    Nat.mod_eq_of_lt (by omega)
  apply BitVec.eq_of_toNat_eq
  simp only [toNat_ssub8, hsum]
  omega

/-! ### The rendering by a 9-bit difference (R72) -/

theorem toNat_diff9 (a b : Byte) : (diff9 a b).toNat = (2 ^ 9 - b.toNat + a.toNat) % 2 ^ 9 := by
  rw [diff9, BitVec.toNat_sub, BitVec.toNat_setWidth_of_le (by decide), BitVec.toNat_setWidth_of_le (by decide)]

/-- The 9-bit difference of two bytes borrows exactly where the first is below the second. -/
theorem borrow_iff (a b : Byte) : borrow a b = true ↔ a.toNat < b.toNat := by
  have htop : borrow a b = decide (2 ^ 8 ≤ (diff9 a b).toNat) := BitVec.msb_eq_decide (diff9 a b)
  rw [htop, decide_eq_true_iff, toNat_diff9]
  omega

/-- The multiplexer selects the saturated difference. -/
theorem ssub8_eq_borrowMux (a b : Byte) : ssub8 a b = borrowMux a b := by
  by_cases hlt : a.toNat < b.toNat
  · rw [borrowMux, if_pos ((borrow_iff a b).2 hlt)]
    exact (ssub8_eq_zero_iff a b).2 hlt.le
  · rw [borrowMux, if_neg (mt (borrow_iff a b).1 hlt)]
    apply BitVec.eq_of_toNat_eq
    rw [toNat_ssub8, BitVec.toNat_setWidth, toNat_diff9]
    omega

/-! ### The statements -/

/-- Settles O24: the result's value is the truncated difference, and the top bit of the 9-bit difference is its
borrow. -/
theorem saturatingSubtraction : Obligations.SaturatingSubtraction := by
  unfold Obligations.SaturatingSubtraction
  intro a b
  refine ⟨fun _ => toNat_ssub8 a b, (ssub8_eq_zero_iff a b).2, ?_, ssub8_le a b, ssub8_eq_borrowMux a b,
    borrow_iff a b⟩
  rw [toNat_ssub8]
  omega

/-- Settles O25: the laws follow from the result's value; 1 - 0 against 0 - 1 breaks commutativity, and 0 - 0 and
1 - 1 have one result for two pairs of operands. -/
theorem subtractionLaws : Obligations.SubtractionLaws := by
  unfold Obligations.SubtractionLaws
  refine ⟨fun a b c => ⟨ssub8_self a, ssub8_zero a, zero_ssub8 b, ssub8_le a b, ssub8_eq_zero_iff a b,
    ssub8_swap_eq_zero, ssub8_ssub8 a b c⟩, fun _ _ _ => rfl, fun hcomm => ?_, ?_⟩
  · exact absurd (hcomm 1 0) (by decide)
  · rintro ⟨g, hg⟩
    have hpairs : ((0, 0) : Byte × Byte) = (1, 1) := by
      rw [← hg 0 0, ← hg 1 1, ssub8_self, ssub8_self]
    exact absurd hpairs (by decide)

end Sys2Proof.Machine

/-! SUPPORT. Proofs of the statements about the write-back and the step (44_writeback_and_step.md): what one step does
to each cell, its aliasing cases, the steps that change nothing, and the bound on all bytes along a run. -/

namespace Sys2Proof.Machine

/-! ### What a step leaves -/

/-- The index of a slot, by its mode (R66). -/
theorem State.slotIndex_eq_resolve_ite (s : State) (m : AddrMode) (b : Byte) :
    s.slotIndex m b = resolve s.L (if m = .absolute then sext8 b else s.entry + sext8 b) := by
  cases m with
  | relative => rfl
  | absolute => rfl

/-- The memory after a step is the pseudocode's (R79). -/
theorem mem_of_step {s t : State} (h : step s = .next t) : t.mem = stepMem s.L s.mem s.entry := by
  rw [step_eq_next s t h, State.dropEntry_mem, State.setCell_mem, stepMem_eq_write]

/-- No step changes the configuration (R15). -/
theorem config_of_step {s t : State} (h : step s = .next t) : t.config = s.config := by
  rw [step_eq_next s t h, State.dropEntry_config, State.setCell_config]

/-- The destination cell holds the result after the step (R77). -/
theorem cell_destIndex_of_step {s t : State} (h : step s = .next t) : t.cell s.destIndex = s.resultByte :=
  (cell_of_step h s.destIndex).trans (if_pos rfl)

/-- Every cell but the destination keeps its byte (R78). -/
theorem cell_of_step_of_ne {s t : State} (h : step s = .next t) {i : Nat} (hi : i ≠ s.destIndex) :
    t.cell i = s.cell i :=
  (cell_of_step h i).trans (if_neg hi)

/-- A cell differs after a step exactly if it is the destination and the result is not its old byte (R80). -/
theorem cell_of_step_ne_iff {s t : State} (h : step s = .next t) (i : Nat) :
    t.cell i ≠ s.cell i ↔ i = s.destIndex ∧ s.resultByte ≠ s.cell s.destIndex := by
  by_cases hi : i = s.destIndex
  · simp [hi, cell_destIndex_of_step h]
  · simp [hi, cell_of_step_of_ne h hi]

/-- A step at the same entry address fetches what the step before it left in the same cells (R82). -/
theorem fetchByte_present_of_step {s t : State} (h : step s = .next t) (k : Nat) :
    (t.present s.entry).fetchByte k = t.cell (s.fetchIndex k) := by
  rw [State.present_fetchByte, State.memRead, State.L_eq_of_config_eq (config_of_step h), State.fetchIndex]

/-- Under the invariant the memory is as before exactly where the result is the destination's old byte (R83). -/
theorem mem_of_step_eq_iff {s t : State} (hs : s.Inv) (h : step s = .next t) :
    t.mem = s.mem ↔ s.resultByte = s.cell s.destIndex := by
  constructor
  · intro hmem
    rw [← cell_destIndex_of_step h, State.cell, State.cell, hmem]
  · intro hresult
    refine equalCellsAreEqualMemory t s (stepKeepsMemoryForm s t hs h) hs
      (State.L_eq_of_config_eq (config_of_step h)) fun i _ => ?_
    by_contra hdiff
    exact ((cell_of_step_ne_iff h i).1 hdiff).2 hresult

/-! ### Aliasing and fixed patterns -/

/-- Where both sources are one cell, the result is 0 (R82). -/
theorem State.resultByte_of_sourceIndex_eq {s : State} (h : s.sourceIndex1 = s.sourceIndex2) : s.resultByte = 0 := by
  rw [State.resultByte, h, ssub8_self]

/-- An opcode and a source-2 displacement of 0 make the opcode byte itself, a 0, the second source (R83). -/
theorem State.cell_sourceIndex2_of_zero {s : State} (h0 : s.fetchByte 0 = 0) (h2 : s.fetchByte 2 = 0) :
    s.cell s.sourceIndex2 = 0 :=
  calc s.cell s.sourceIndex2
      = s.cell (s.slotIndex .relative 0) := by rw [State.sourceIndex2, h0, h2]; rfl
    _ = s.fetchByte 0 := by rw [State.slotIndex_relative_zero, State.fetchByte_eq_cell]
    _ = 0 := h0

/-- An opcode of 0 with equal displacements makes the first source the destination (R83). -/
theorem State.sourceIndex1_eq_destIndex {s : State} (h0 : s.fetchByte 0 = 0) (h13 : s.fetchByte 1 = s.fetchByte 3) :
    s.sourceIndex1 = s.destIndex := by
  rw [State.sourceIndex1, State.destIndex, h0, h13]
  rfl

/-- An opcode and a destination displacement of 0 make the entry address the destination (R84). -/
theorem State.destIndex_of_zero {s : State} (h0 : s.fetchByte 0 = 0) (h3 : s.fetchByte 3 = 0) :
    s.destIndex = resolve s.L s.entry :=
  calc s.destIndex
      = s.slotIndex .relative 0 := by rw [State.destIndex, h0, h3]; rfl
    _ = resolve s.L (s.entry + 0) := s.slotIndex_relative 0
    _ = resolve s.L s.entry := by rw [add_zero]

/-! ### A bound on every byte -/

/-- Every cell of the buffer holds at most `bound` (R84). -/
def State.BoundedBy (s : State) (bound : Byte) : Prop := ∀ i, i < s.L → s.cell i ≤ bound

/-- A result is at most the first source, so a bound on the buffer bounds it too (R75, R84). -/
theorem State.BoundedBy.resultByte_le {s : State} {bound : Byte} (h : s.BoundedBy bound) : s.resultByte ≤ bound :=
  BitVec.le_trans (ssub8_le _ _) (h s.sourceIndex1 (s.slotIndex_lt _ _))

/-- Setting a cell to a byte within the bound keeps the bound. -/
theorem State.BoundedBy.setCell {s : State} {bound v : Byte} (h : s.BoundedBy bound) (hv : v ≤ bound) (i : Nat) :
    (s.setCell i v).BoundedBy bound := by
  intro j hj
  rw [State.cell_setCell]
  split
  next => exact hv
  next => exact h j hj

/-- A step keeps a bound on the buffer (R84). -/
theorem State.BoundedBy.of_step {s t : State} {bound : Byte} (hs : s.BoundedBy bound) (h : step s = .next t) :
    t.BoundedBy bound := by
  have hset : (s.setCell s.destIndex s.resultByte).BoundedBy bound := hs.setCell hs.resultByte_le _
  rw [step_eq_next s t h]
  simpa [State.BoundedBy] using hset

/-- A run keeps a bound on the buffer (R84). -/
theorem State.BoundedBy.runEntries {s : State} {bound : Byte} (h : s.BoundedBy bound) (es : List Int) :
    ∃ t, s.runEntries es = .next t ∧ t.BoundedBy bound := by
  induction es generalizing s with
  | nil => exact ⟨s, s.runEntries_nil, h⟩
  | cons e es ih =>
    have hpresent : (s.present e).BoundedBy bound := h
    rw [State.runEntries_cons]
    exact ih (h.setCell hpresent.resultByte_le _)

/-- The bound 0 says that every cell of the buffer holds 0. -/
theorem State.boundedBy_zero_iff (s : State) : s.BoundedBy 0 ↔ ∀ i, i < s.L → s.cell i = 0 :=
  forall₂_congr fun _ _ => BitVec.le_zero_iff

/-! ### The statements -/

/-- Settles O40: a result is at most its first source, so a step keeps every bound on the buffer, a run does by
induction on its entry addresses, and the all-zero memory is the case of the bound 0. -/
theorem maximumByteNeverIncreases : Obligations.MaximumByteNeverIncreases := by
  unfold Obligations.MaximumByteNeverIncreases
  refine ⟨fun s hzero => ?_, fun es s bound hbound => State.BoundedBy.runEntries hbound es⟩
  have hfetch (k : Nat) : s.fetchByte k = 0 := hzero _ (s.fetchIndex_lt k)
  have hbound : s.BoundedBy 0 := s.boundedBy_zero_iff.2 hzero
  exact ⟨State.destIndex_of_zero (hfetch 0) (hfetch 3), _, step_next s,
    (State.boundedBy_zero_iff _).1 (hbound.of_step (step_next s))⟩

/-- Settles O26: the instruction sets one cell, its three indices resolved by their modes. -/
theorem ssubCompletesAndWritesOneCell : Obligations.SsubCompletesAndWritesOneCell := by
  unfold Obligations.SsubCompletesAndWritesOneCell
  intro m1 m2 md fn i1 i2 i3 s
  refine ⟨_, execSsub_next m1 m2 md fn i1 i2 i3 s, rfl, rfl, rfl, fun j => ?_⟩
  simp only [← State.slotIndex_eq_resolve_ite]
  exact s.cell_setCell _ _ j

/-- Settles O29: the pseudocode writes the step's result to the step's destination. -/
theorem stepFollowsThePseudocode : Obligations.StepFollowsThePseudocode := by
  unfold Obligations.StepFollowsThePseudocode
  exact fun s => ⟨_, step_next s, mem_of_step (step_next s), config_of_step (step_next s)⟩

/-- Settles O30: the destination takes the result, and a cell differs only there. -/
theorem singleWriteGuarantee : Obligations.SingleWriteGuarantee := by
  unfold Obligations.SingleWriteGuarantee
  intro s
  have hstep := step_next s
  refine ⟨_, hstep, cell_destIndex_of_step hstep, fun _ hi => cell_of_step_of_ne hstep hi,
    fun i hdiff => ((cell_of_step_ne_iff hstep i).1 hdiff).1, ?_⟩
  simp only [cell_of_step_ne_iff hstep, exists_eq_left]

/-- Settles O31: the function is the pseudocode. -/
theorem stepIsAFunctionOfMemoryLengthEntry : Obligations.StepIsAFunctionOfMemoryLengthEntry := by
  unfold Obligations.StepIsAFunctionOfMemoryLengthEntry
  exact ⟨stepMem, fun s => ⟨_, step_next s, mem_of_step (step_next s)⟩⟩

/-- Settles O33: the destination holds the result, which is of the source cells as they were before the step. -/
theorem aliasingFollowsReadThenWrite : Obligations.AliasingFollowsReadThenWrite := by
  unfold Obligations.AliasingFollowsReadThenWrite
  intro s
  have hstep := step_next s
  have hdest := cell_destIndex_of_step hstep
  refine ⟨_, hstep, fun hsources => ?_, fun h1 => ?_, fun h2 => ?_, fun k hk => ?_, fun k hk => ?_, fun k hk => ?_,
    fun hL => ?_⟩
  · rw [hdest, State.resultByte_of_sourceIndex_eq hsources]
  · rw [hdest, State.resultByte, h1]
  · rw [hdest, State.resultByte, h2]
  · rw [fetchByte_present_of_step hstep, ← hk, hdest]
  · rw [State.resultByte, hk, State.fetchByte_eq_cell]
  · rw [State.resultByte, hk, State.fetchByte_eq_cell]
  · have hindex : ∀ i, i < s.L → i = 0 := fun i hi => by omega
    have hsources : s.sourceIndex1 = s.sourceIndex2 :=
      (hindex _ (s.slotIndex_lt _ _)).trans (hindex _ (s.slotIndex_lt _ _)).symm
    rw [← hindex _ s.destIndex_lt, hdest, State.resultByte_of_sourceIndex_eq hsources]

/-- Settles O34: the pattern subtracts the opcode byte, a 0, from the destination's own byte. -/
theorem stepsThatChangeNothing : Obligations.StepsThatChangeNothing := by
  unfold Obligations.StepsThatChangeNothing
  intro s hs
  have hiff := mem_of_step_eq_iff hs (step_next s)
  refine ⟨_, step_next s, hiff, fun h0 h2 h13 => hiff.2 ?_⟩
  rw [State.resultByte, State.cell_sourceIndex2_of_zero h0 h2, ssub8_zero, State.sourceIndex1_eq_destIndex h0 h13]

end Sys2Proof.Machine

/-! SUPPORT. Proof of the statement about exceptions (60_exceptions.md): there are none. -/

namespace Sys2Proof.Machine

/-- There is no fault to raise (R86). -/
theorem Fault.false (r : Fault) : False := nomatch r

/-- Every four-byte pattern is `SSUB`, with the displacement bytes as they stand (R41, R87). -/
theorem decode_eq_ssub (i0 i1 i2 i3 : Byte) :
    ∃ m1 m2 md fn, decode i0 i1 i2 i3 = .ssub m1 m2 md fn i1 i2 i3 :=
  ⟨_, _, _, _, rfl⟩

/-- Settles O27: decoding has the one answer `SSUB`, and every instruction and every step answers a next state. -/
theorem everyPatternExecutes : Obligations.EveryPatternExecutes := by
  unfold Obligations.EveryPatternExecutes
  exact ⟨Fault.false, fun i0 i1 i2 i3 s => ⟨decode_eq_ssub i0 i1 i2 i3, exec_eq_next _ s, _, step_next s⟩⟩

end Sys2Proof.Machine

/-! SUPPORT. Proofs of the statements about reset and the host's runs (70_reset_and_hazards.md): the reset state meets
the invariant, and the machine behind the host's interface computes a run. -/

namespace Sys2Proof.Machine

/-- A run of the host's machine goes on from where its first step ends. -/
theorem core_run_succ_of_step {M : Host.Core} {s t : M.State} (h : M.step s = .next t) (k : Nat) :
    M.run (k + 1) s = M.run k t := by
  simp only [Host.Core.run, h]

/-- A step at an entry address chosen beforehand sets the cell it sets when the host issues that address, and leaves
the host's other choices (R103). -/
theorem step_of_chosen (s : State) (e : Int) (es : List Int) :
    step { s with hostEntries := e :: es } =
      .next { s.setCell (s.present e).destIndex (s.present e).resultByte with hostEntries := es } := rfl

/-- Settles O48, by induction on the entry addresses: the machine's first step uses up the first address and sets the
cell which the run sets for it, and the rest of the run starts from there. -/
theorem coreStepsThroughARun : Obligations.CoreStepsThroughARun := by
  unfold Obligations.CoreStepsThroughARun
  intro es s
  induction es generalizing s with
  | nil => rfl
  | cons e es ih =>
    have hstep := step_of_chosen s e (es ++ s.hostEntries)
    rw [State.runEntries_cons]
    exact (core_run_succ_of_step (M := core) hstep es.length).trans (ih (s.setCell _ _))

/-- Settles O38: reset is a start-up state, and every seeding of one meets the invariant. -/
theorem resetMeetsMemoryForm : Obligations.ResetMeetsMemoryForm := by
  unfold Obligations.ResetMeetsMemoryForm
  exact State.Inv.start Config.canonical Config.seedByte []

end Sys2Proof.Machine
